-- ==== Sys2Proof/Word.lean ====
section
/-! DEFINITION. The words of the block: its input and output ports, each an unsigned binary number of the
width 10_state.md rules R18 and R19 give it, bit 0 least significant (00_scope.md R6). -/

namespace Sys2Proof

/-- The display mode, 00_scope.md section 5: port value 0 is 24-hour, 1 is 12-hour. -/
inductive Mode where
  | h24
  | h12
  deriving DecidableEq, Repr

/-- The period, 00_scope.md section 5: port value 0 is AM, 1 is PM. -/
inductive Period where
  | am
  | pm
  deriving DecidableEq, Repr

/-- The input ports of 10_state.md R18 other than `in.op`. -/
inductive InPort where
  | v | b | t | year | month | day | hour | minute | second | mode | period
  deriving DecidableEq, Repr

/-- The output ports of 10_state.md R19 other than `out.err`. -/
inductive OutPort where
  | bcd | bin | year | month | day | hour | minute | second | period | t | weekday | leap
  deriving DecidableEq, Repr

/-- A request: one value on every input port (00_scope.md R9, 10_state.md R18). -/
structure Request where
  op     : BitVec 3
  v      : BitVec 7
  b      : BitVec 8
  t      : BitVec 32
  year   : BitVec 16
  month  : BitVec 4
  day    : BitVec 5
  hour   : BitVec 5
  minute : BitVec 6
  second : BitVec 6
  mode   : BitVec 1
  period : BitVec 1
  deriving DecidableEq, Repr

/-- A response: one value on every output port (00_scope.md R9, 10_state.md R19). -/
structure Response where
  err     : BitVec 1
  bcd     : BitVec 8
  bin     : BitVec 8
  year    : BitVec 16
  month   : BitVec 4
  day     : BitVec 5
  hour    : BitVec 5
  minute  : BitVec 6
  second  : BitVec 6
  period  : BitVec 1
  t       : BitVec 32
  weekday : BitVec 3
  leap    : BitVec 1
  deriving DecidableEq, Repr

/-- The request with 0 on every port, the base the encoder and the table words start from. -/
def Request.zero : Request := ⟨0, 0, 0, 0, 0, 0, 0, 0, 0, 0, 0, 0⟩

/-- The response with 0 on every port: what an operation does not assign keeps this value (10_state.md R20). -/
def Response.zero : Response := ⟨0, 0, 0, 0, 0, 0, 0, 0, 0, 0, 0, 0, 0⟩

/-- The width of an input port, 10_state.md R18. -/
def InPort.width : InPort → Nat
  | .v => 7
  | .b => 8
  | .t => 32
  | .year => 16
  | .month => 4
  | .day => 5
  | .hour => 5
  | .minute => 6
  | .second => 6
  | .mode => 1
  | .period => 1

/-- The unsigned value an input port carries (30_encoding.md R35). -/
def Request.port (r : Request) : InPort → Nat
  | .v => r.v.toNat
  | .b => r.b.toNat
  | .t => r.t.toNat
  | .year => r.year.toNat
  | .month => r.month.toNat
  | .day => r.day.toNat
  | .hour => r.hour.toNat
  | .minute => r.minute.toNat
  | .second => r.second.toNat
  | .mode => r.mode.toNat
  | .period => r.period.toNat

/-- The unsigned value an output port carries. -/
def Response.port (p : Response) : OutPort → Nat
  | .bcd => p.bcd.toNat
  | .bin => p.bin.toNat
  | .year => p.year.toNat
  | .month => p.month.toNat
  | .day => p.day.toNat
  | .hour => p.hour.toNat
  | .minute => p.minute.toNat
  | .second => p.second.toNat
  | .period => p.period.toNat
  | .t => p.t.toNat
  | .weekday => p.weekday.toNat
  | .leap => p.leap.toNat

end Sys2Proof
end

