-- ==== Sys2Proof/Syntax.lean ====
section
/-! DEFINITION. The operations of the block, one constructor per row of spec/opcode_table.json, with the operands
in the order of 30_encoding.md R42.  A numeric operand is a natural number, as R42 writes it and as it enters the
pseudocode (00_scope.md R7, 30_encoding.md R35); that it fits its port is WellFormed's check (log 7). -/

namespace Sys2Proof

/-- The eight operation codes of 30_encoding.md R33, the two reserved ones (R40) among them. -/
inductive Instr where
  | bcdenc (v : Nat)
  | bcddec (b : Nat)
  | e2c (t : Nat) (mode : Mode)
  | c2e (year month day hour minute second : Nat) (mode : Mode) (period : Period)
  | wday (year month day : Nat)
  | leap (year : Nat)
  | rsvd6
  | rsvd7
  deriving DecidableEq, Repr

end Sys2Proof
end

