-- ==== Sys2Proof/WellFormed.lean ====
section
/-! DEFINITION. Which operations can be presented: every operand fits its port (10_state.md R18, 30_encoding.md R32).
An operand outside its DOMAIN is well formed all the same (30_encoding.md R37). -/

namespace Sys2Proof

/-- `n` can be driven on the port `p`, which is `p.width` bits wide. -/
def InPort.fits (p : InPort) (n : Nat) : Bool := decide (n < 2 ^ p.width)

/-- Every numeric operand fits the port that carries it.  Mode and period have only their port's two values. -/
def Instr.wellFormed : Instr → Bool
  | .bcdenc v => InPort.v.fits v
  | .bcddec b => InPort.b.fits b
  | .e2c t _ => InPort.t.fits t
  | .c2e year month day hour minute second _ _ =>
      InPort.year.fits year && InPort.month.fits month && InPort.day.fits day && InPort.hour.fits hour &&
        InPort.minute.fits minute && InPort.second.fits second
  | .wday year month day => InPort.year.fits year && InPort.month.fits month && InPort.day.fits day
  | .leap year => InPort.year.fits year
  | .rsvd6 => true
  | .rsvd7 => true

end Sys2Proof
end

