-- ==== Sys2Proof/Decode.lean ====
section
/-! DEFINITION. Decoding a request to the operation it selects, and the encoder.  `in.op` alone selects the
operation and the decode is total on its eight values (30_encoding.md R33, R38, R41): there is nothing to refuse. -/

namespace Sys2Proof

/-- `in.mode` and `E2C`/`C2E`'s operand: 0 is 24-hour, 1 is 12-hour (00_scope.md section 5). -/
def Mode.ofBit (x : BitVec 1) : Mode := if x = 1 then .h12 else .h24

/-- The port value of a mode. -/
def Mode.toBit : Mode → BitVec 1
  | .h24 => 0
  | .h12 => 1

/-- `in.period`: 0 is AM, 1 is PM (00_scope.md section 5). -/
def Period.ofBit (x : BitVec 1) : Period := if x = 1 then .pm else .am

/-- The port value of a period. -/
def Period.toBit : Period → BitVec 1
  | .am => 0
  | .pm => 1

/-- The period as a number in the pseudocode, 0 or 1 (00_scope.md R7). -/
def Period.toNat : Period → Nat
  | .am => 0
  | .pm => 1

/-- The decoder, 30_encoding.md R33 with the formats of R32: the three bits of `in.op`, most significant first,
select the operation; the ports of its format are its operands; every other port is ignored (R36). -/
def decode (r : Request) : Instr :=
  match r.op[2], r.op[1], r.op[0] with
  | false, false, false => .bcdenc r.v.toNat
  | false, false, true  => .bcddec r.b.toNat
  | false, true,  false => .e2c r.t.toNat (Mode.ofBit r.mode)
  | false, true,  true  =>
      .c2e r.year.toNat r.month.toNat r.day.toNat r.hour.toNat r.minute.toNat r.second.toNat
        (Mode.ofBit r.mode) (Period.ofBit r.period)
  | true,  false, false => .wday r.year.toNat r.month.toNat r.day.toNat
  | true,  false, true  => .leap r.year.toNat
  | true,  true,  false => .rsvd6
  | true,  true,  true  => .rsvd7

/-- The encoder over given values of the ignored ports: it drives `in.op` and the ports of the operation's format
(30_encoding.md R32, R33) and leaves every other port of `base` as it is (don't-care, R36). -/
def encodeOn (base : Request) : Instr → Request
  | .bcdenc v => { base with op := 0, v := BitVec.ofNat 7 v }
  | .bcddec b => { base with op := 1, b := BitVec.ofNat 8 b }
  | .e2c t mode => { base with op := 2, t := BitVec.ofNat 32 t, mode := mode.toBit }
  | .c2e year month day hour minute second mode period =>
      { base with
        op := 3, year := BitVec.ofNat 16 year, month := BitVec.ofNat 4 month, day := BitVec.ofNat 5 day,
        hour := BitVec.ofNat 5 hour, minute := BitVec.ofNat 6 minute, second := BitVec.ofNat 6 second,
        mode := mode.toBit, period := period.toBit }
  | .wday year month day =>
      { base with op := 4, year := BitVec.ofNat 16 year, month := BitVec.ofNat 4 month, day := BitVec.ofNat 5 day }
  | .leap year => { base with op := 5, year := BitVec.ofNat 16 year }
  | .rsvd6 => { base with op := 6 }
  | .rsvd7 => { base with op := 7 }

/-- The encoder with 0 on the ignored ports (log 15). -/
def encode (i : Instr) : Request := encodeOn Request.zero i

/-! ## The opcode table as data (30_encoding.md R32, R34, R38; spec/opcode_table.json) -/

/-- One row of the opcode table: mask and match over `in.op`, the ports read and the ports assigned beside `out.err`. -/
structure OpcodeRow where
  mnemonic : String
  mask     : BitVec 3
  code     : BitVec 3
  reads    : List InPort
  assigns  : List OutPort
  deriving DecidableEq, Repr

/-- The eight rows, in the order of 30_encoding.md R33. -/
def opcodeTable : List OpcodeRow :=
  [ ⟨"BCDENC", 7, 0, [.v], [.bcd]⟩,
    ⟨"BCDDEC", 7, 1, [.b], [.bin]⟩,
    ⟨"E2C", 7, 2, [.t, .mode], [.year, .month, .day, .hour, .minute, .second, .period]⟩,
    ⟨"C2E", 7, 3, [.year, .month, .day, .hour, .minute, .second, .mode, .period], [.t]⟩,
    ⟨"WDAY", 7, 4, [.year, .month, .day], [.weekday]⟩,
    ⟨"LEAP", 7, 5, [.year], [.leap]⟩,
    ⟨"RSVD6", 7, 6, [], []⟩,
    ⟨"RSVD7", 7, 7, [], []⟩ ]

/-- A row selects an operation code when the masked code is the row's (30_encoding.md R38). -/
def OpcodeRow.selects (row : OpcodeRow) (op : BitVec 3) : Bool := decide (op &&& row.mask = row.code)

/-- The row of the table that an operation code selects. -/
def opcodeRow (op : BitVec 3) : Option OpcodeRow := opcodeTable.find? (·.selects op)

/-- The input ports the operation with code `op` reads beside `in.op` (30_encoding.md R32). -/
def portsRead (op : BitVec 3) : List InPort := ((opcodeRow op).map (·.reads)).getD []

/-- The output ports the operation with code `op` assigns beside `out.err` (30_encoding.md R34). -/
def portsAssigned (op : BitVec 3) : List OutPort := ((opcodeRow op).map (·.assigns)).getD []

/-- The input ports beside `in.op` the response to a request depends on: those of its format, less `in.period` of `C2E`
in 24-hour mode (30_encoding.md R36). -/
def Request.portsUsed (r : Request) : List InPort :=
  if r.op = 3 ∧ r.mode = 0 then (portsRead r.op).filter fun p => decide (p ≠ .period) else portsRead r.op

/-- The mnemonic of an operation, 30_encoding.md R42. -/
def Instr.mnemonic : Instr → String
  | .bcdenc _ => "BCDENC"
  | .bcddec _ => "BCDDEC"
  | .e2c _ _ => "E2C"
  | .c2e _ _ _ _ _ _ _ _ => "C2E"
  | .wday _ _ _ => "WDAY"
  | .leap _ => "LEAP"
  | .rsvd6 => "RSVD6"
  | .rsvd7 => "RSVD7"

/-! ## Words numbered as spec/opcode_table.json numbers them -/

/-- The request a table word stands for: the table gives an operation the three bits of `in.op` and no bit to an
operand, so `in.op` is the word's low three bits, every operand port is 0, and the padding of the three bits to a
whole byte belongs to no port (log 6). -/
def Request.ofTableWord (nbits w : Nat) : Request :=
  { Request.zero with op := BitVec.ofNat 3 (w % 2 ^ nbits) }

/-- The operation the decoder reads from a table word. -/
def decodeTableWord (nbits w : Nat) : Option Instr := some (decode (Request.ofTableWord nbits w))

end Sys2Proof
end

