-- ==== Sys2Proof/Config.lean ====
section
/-! DEFINITION. The build constants and the one open parameter of the block (00_scope.md R5, 10_state.md R12). -/

namespace Sys2Proof

/-- What the builder of the block fixes: `MONDAY_INDEX`, in 1..7, open (00_scope.md R5, 92_eei_decisions.md D13).
Held as its offset from 1, so that the range is the type's own.  The model takes it as an argument of `exec`
through the field `config` of State (10_state.md R12; log 2). -/
structure Config where
  mondayOffset : Fin 7
  deriving DecidableEq, Repr

/-- `MONDAY_INDEX`: the value `out.weekday` takes for a Monday. -/
def Config.mondayIndex (c : Config) : Nat := c.mondayOffset.val + 1

/-- The default the spec states for the open parameter: `MONDAY_INDEX = 1` (00_scope.md R5). -/
def Config.default : Config := ⟨0⟩

/-- `EPOCH_YEAR`, the year whose 1 January 00:00:00 is timestamp 0 (00_scope.md R5). -/
abbrev Config.epochYear : Nat := 1970

/-- `EPOCH_DAYNUM`, the day number of 1970-01-01 (00_scope.md R5). -/
abbrev Config.epochDaynum : Nat := 719162

/-- `T_MAX`, the largest timestamp, `2^TW - 1` with `TW` = 32 (00_scope.md R5). -/
abbrev Config.tMax : Nat := 4294967295

end Sys2Proof
end

