-- ==== Sys2Proof/Machine/Calendar.lean ====
section
/-! DEFINITION. The calendar helpers of 40_calendar_primitives.md R44 to R51: functions on natural numbers
(00_scope.md R7), none of them an operation. -/

namespace Sys2Proof.Machine

/-- R44: divisible by 4, and not by 100 unless by 400; every natural year. -/
def isLeap (y : Nat) : Bool := decide (y % 4 = 0 ∧ (y % 100 ≠ 0 ∨ y % 400 = 0))

/-- R45. -/
def daysInYear (y : Nat) : Nat := if isLeap y then 366 else 365

/-- R46, the month table with February adjusted by `isLeap`.  Outside 1..12 the spec does not define it and no rule
evaluates it: the 0 there is never seen (93_implementation_defined.md V4; log 8). -/
def daysInMonth (y m : Nat) : Nat :=
  match m with
  | 1 => 31
  | 2 => if isLeap y then 29 else 28
  | 3 => 31
  | 4 => 30
  | 5 => 31
  | 6 => 30
  | 7 => 31
  | 8 => 31
  | 9 => 30
  | 10 => 31
  | 11 => 30
  | 12 => 31
  | _ => 0

/-- R47: `1 ≤ m ≤ 12` first, then `1 ≤ d ≤ daysInMonth y m`. -/
def dateValid (y m d : Nat) : Bool := decide (1 ≤ m ∧ m ≤ 12) && decide (1 ≤ d ∧ d ≤ daysInMonth y m)

/-- The sum of the lengths of the first `n` months of year `y`. -/
def daysInMonths (y : Nat) : Nat → Nat
  | 0 => 0
  | n + 1 => daysInMonths y n + daysInMonth y (n + 1)

/-- R48: the sum of `daysInMonth y i` for `i` from 1 to `m - 1`. -/
def daysBeforeMonth (y m : Nat) : Nat := daysInMonths y (m - 1)

/-- R49, the sum itself: `daysInYear i` for `i` from 1 to `n`. -/
def daysInYears : Nat → Nat
  | 0 => 0
  | n + 1 => daysInYears n + daysInYear (n + 1)

/-- R49 in the closed form the rule gives, with `n = y - 1`, for `y ≥ 1` (log 10).  `Obligations.DaysBeforeYearSum`
says that it is the sum. -/
def daysBeforeYear (y : Nat) : Nat :=
  365 * (y - 1) + (y - 1) / 4 - (y - 1) / 100 + (y - 1) / 400

/-- R50: the number of days from 1 January of year 1 to a valid date of a year `y ≥ 1`. -/
def dayNumber (y m d : Nat) : Nat := daysBeforeYear y + daysBeforeMonth y m + (d - 1)

/-- R51: the number of days by which the date's weekday follows Monday, in 0..6. -/
def weekdayOffset (y m d : Nat) : Nat := dayNumber y m d % 7

/-- R51: the weekday index for an offset `k`, given the index of Monday. -/
def weekdayIndex (mondayIndex k : Nat) : Nat := (k + mondayIndex - 1) % 7 + 1

end Sys2Proof.Machine
end

