-- ==== Sys2Proof/Machine/Operands.lean ====
section
/-! DEFINITION. The operands: an operand is the unsigned value of one port, used as it stands (30_encoding.md R35),
and this file says which values lie in an operation's domain (10_state.md R18) and how the hour operand is read
(41_epoch_conversion.md R55 to R57). -/

namespace Sys2Proof.Machine

/-- The high nibble, `b[7:4]` (42_bcd_codec.md R64). -/
def highNibble (b : Nat) : Nat := b >>> 4

/-- The low nibble, `b[3:0]` (42_bcd_codec.md R64). -/
def lowNibble (b : Nat) : Nat := b &&& 0x0F

/-- A valid BCD byte has both nibbles in 0..9 (00_scope.md section 5). -/
def validBcd (b : Nat) : Bool := decide (highNibble b ≤ 9) && decide (lowNibble b ≤ 9)

/-- R55, the hour's range under a mode. -/
def hourValid (h : Nat) : Mode → Bool
  | .h24 => decide (h ≤ 23)
  | .h12 => decide (1 ≤ h ∧ h ≤ 12)

/-- R55. -/
def timeValid (h mi s : Nat) (mode : Mode) : Bool :=
  decide (s < 60) && decide (mi < 60) && hourValid h mode

/-- R56: 24-hour to 12-hour form, with the period. -/
def to12h (h24 : Nat) : Nat × Period :=
  let p := if h24 > 11 then Period.pm else Period.am
  let h := h24 - 12 * p.toNat
  (if h = 0 then 12 else h, p)

/-- R57: 12-hour to 24-hour form. -/
def to24h (h12 : Nat) (p : Period) : Nat := h12 % 12 + 12 * p.toNat

/-- The hour operand of `C2E` as an hour in 0..23 (41_epoch_conversion.md R61); the period is ignored in 24-hour mode
(30_encoding.md R36). -/
def hourOf (h : Nat) (period : Period) : Mode → Nat
  | .h24 => h
  | .h12 => to24h h period

/-- The hour and period `E2C` shows for an hour in 0..23 (41_epoch_conversion.md R58); the period is AM, that is 0,
in 24-hour mode. -/
def clockOf (h24 : Nat) : Mode → Nat × Period
  | .h24 => (h24, .am)
  | .h12 => to12h h24

end Sys2Proof.Machine
end

