-- ==== Sys2Proof/Machine/Flags.lean ====
section
/-! DEFINITION. The one flag of the block, the response bit `out.err` (60_exceptions.md R67), and its causes, operation
by operation (R69).  No flag is stored (10_state.md R16). -/

namespace Sys2Proof.Machine

/-- `out.err`: 1 when the operands are outside the operation's domain, else 0 (60_exceptions.md R67). -/
def errBit (outside : Bool) : BitVec 1 := BitVec.ofBool outside

/-- `BCDENC`: `v > 99` (42_bcd_codec.md R63). -/
def bcdencOutside (v : Nat) : Bool := decide (v > 99)

/-- `BCDDEC`: `hi > 9` or `lo > 9` (42_bcd_codec.md R64). -/
def bcddecOutside (b : Nat) : Bool := !validBcd b

/-- `WDAY`: year 0 or an invalid date (40_calendar_primitives.md R53). -/
def wdayOutside (y m d : Nat) : Bool := decide (y = 0) || !dateValid y m d

/-- `C2E`: a year before 1970, an invalid date or an invalid time (41_epoch_conversion.md R61). -/
def c2eOutside (y m d h mi s : Nat) (mode : Mode) : Bool :=
  decide (y < Config.epochYear) || !dateValid y m d || !timeValid h mi s mode

/-- `C2E`: an instant past `T_MAX` (41_epoch_conversion.md R61). -/
def c2eTooLate (t : Nat) : Bool := decide (t > Config.tMax)

end Sys2Proof.Machine
end

