-- ==== Sys2Proof/Machine/State.lean ====
section
/-! DEFINITION. The state.  The block holds no architectural state (10_state.md R10, R14 to R17, R21): State is the
interface between host and block (00_scope.md R9, 20_memory.md R28) and the build parameter (10_state.md R12), and
nothing else (log 1, log 2). -/

namespace Sys2Proof.Machine

/-- Plain data.  `config`: what the builder fixed, never written by a step.  `requests`: the requests the host has
issued and the block has not answered, oldest first.  `answered`: the requests whose response the block has given and
the host has not taken, oldest first: these transactions are still in progress, and the host has to keep their ports
(70_reset_and_hazards.md R79 (a), R80).  `responses`: the responses to them, oldest first, so that the output ports
have no value while it is empty (R76). -/
structure State where
  config    : Config
  requests  : List Request
  answered  : List Request
  responses : List Response
  deriving DecidableEq, Repr

/-- The faults.  The block itself has none (60_exceptions.md R68). -/
inductive Fault where
  /-- The host reads the output ports when there is no response to read: "a fault of the host script, not a value"
  (70_reset_and_hazards.md R76).  Raised by `takeResponse` only, never by `exec` or `step`.  Safe (log 4). -/
  | noResponse
  deriving DecidableEq, Repr

/-- The refusals.  The block itself has none (60_exceptions.md R68). -/
inductive Refusal where
  /-- An instruction without a meaning; no arm of `exec` is left with it.  Safe. -/
  | notModelled (mnemonic : String)
  /-- The host drives other values on the ports an operation reads, or another agent's request on them, before the
  response to that operation has been taken (70_reset_and_hazards.md R79 (a), R80; 93_implementation_defined.md U8, V2).  Raised by `redrive` only.
  Safe (log 11). -/
  | portsChanged
  deriving DecidableEq, Repr

/-- The machine right after reset: idle, no transaction in progress, no response pending (70_reset_and_hazards.md
R76), and the parameter at the default the spec states (00_scope.md R5; log 2). -/
def State.reset : State := ⟨Config.default, [], [], []⟩

end Sys2Proof.Machine
end

