-- ==== Sys2Proof/Machine/Ops.lean ====
section
/-! DEFINITION. The shared operations over the state: giving a response, rejecting a request by the error bit, taking
the next request, being idle.  There is no trap to enter and none to return from (60_exceptions.md R68, R71, R72). -/

namespace Sys2Proof.Machine

/-- The block gives its one response to the request it executes; nothing else changes (00_scope.md R9, 20_memory.md
R28: one response per request, in the order of the requests). -/
def respond (p : Response) (s : State) : Host.Outcome State Fault Refusal :=
  .next { s with responses := s.responses ++ [p] }

/-- The response of `C2E`, `WDAY` and the reserved codes when they report an error: `out.err` is 1 and every other
port 0 (10_state.md R20). -/
def errorResponse : Response := { Response.zero with err := errBit true }

/-- Answering with `errorResponse`. -/
def reject (s : State) : Host.Outcome State Fault Refusal := respond errorResponse s

/-- The next request to execute, oldest first (20_memory.md R28 (b); log 1), moved from those that wait to those whose
response the host has not taken (70_reset_and_hazards.md R79 (a)). -/
def nextRequest (s : State) : Option (Request × State) :=
  match s.requests with
  | [] => none
  | r :: rest => some (r, { s with requests := rest, answered := s.answered ++ [r] })

/-- No request waits: the block starts no activity of its own (10_state.md R11) and stays ready for a request
(70_reset_and_hazards.md R82), so nothing changes (log 3). -/
def idle (s : State) : Host.Outcome State Fault Refusal := .next s

end Sys2Proof.Machine
end

