-- ==== Sys2Proof/Machine/Bcd.lean ====
section
/-! DEFINITION. The BCD codec, 42_bcd_codec.md R63 and R64.  Both operations give their formula's value for every port
value, also where they set `out.err` (90_conflicts.md C2). -/

namespace Sys2Proof.Machine

/-- R63's formula: tens digit to the high nibble, units digit to the low nibble. -/
def bcdOf (v : Nat) : Nat := v + 6 * (v / 10)

/-- R64's formula. -/
def binOf (b : Nat) : Nat := b - 6 * highNibble b

/-- R63, the response. -/
def bcdencResponse (v : Nat) : Response :=
  { Response.zero with bcd := BitVec.ofNat 8 (bcdOf v), err := errBit (bcdencOutside v) }

/-- `BCDENC v` (R63). -/
def execBcdenc (v : Nat) (s : State) : Host.Outcome State Fault Refusal :=
  respond (bcdencResponse v) s

/-- R64, the response. -/
def bcddecResponse (b : Nat) : Response :=
  { Response.zero with bin := BitVec.ofNat 8 (binOf b), err := errBit (bcddecOutside b) }

/-- `BCDDEC b` (R64). -/
def execBcddec (b : Nat) (s : State) : Host.Outcome State Fault Refusal :=
  respond (bcddecResponse b) s

end Sys2Proof.Machine
end

