-- ==== Sys2Proof/Machine/Epoch.lean ====
section
/-! DEFINITION. The epoch conversions, 41_epoch_conversion.md R58 and R61. -/

namespace Sys2Proof.Machine

/-- R58's year loop, `while days >= daysInYear(y)`, from `(days, y)` to `(days, y)`.  The first argument bounds the
passes; every pass takes at least one day away, so `days` itself is bound enough (R59 (a); log 9). -/
def yearLoop : Nat → Nat → Nat → Nat × Nat
  | 0, days, y => (days, y)
  | fuel + 1, days, y =>
    if days ≥ daysInYear y then yearLoop fuel (days - daysInYear y) (y + 1) else (days, y)

/-- R58's month loop, `while days >= daysInMonth(y, m)`, from `(days, m)` to `(days, m)`, bounded in the same way
(R59 (b); log 9). -/
def monthLoop (y : Nat) : Nat → Nat → Nat → Nat × Nat
  | 0, days, m => (days, m)
  | fuel + 1, days, m =>
    if days ≥ daysInMonth y m then monthLoop y fuel (days - daysInMonth y m) (m + 1) else (days, m)

/-- The date `days` days after 1970-01-01: year, month, day (R58). -/
def dateOfDays (days : Nat) : Nat × Nat × Nat :=
  let (left, y) := yearLoop days days Config.epochYear
  let (rest, m) := monthLoop y left left 1
  (y, m, rest + 1)

/-- R58, the response. -/
def e2cResponse (t : Nat) (mode : Mode) : Response :=
  let second := t % 60
  let minute := t / 60 % 60
  let h24 := t / 3600 % 24
  let (hour, period) := clockOf h24 mode
  let (year, month, day) := dateOfDays (t / 86400)
  { Response.zero with
    year := BitVec.ofNat 16 year, month := BitVec.ofNat 4 month, day := BitVec.ofNat 5 day,
    hour := BitVec.ofNat 5 hour, minute := BitVec.ofNat 6 minute, second := BitVec.ofNat 6 second,
    period := period.toBit, err := errBit false }

/-- `E2C t, mode` (R58). -/
def execE2c (t : Nat) (mode : Mode) (s : State) : Host.Outcome State Fault Refusal :=
  respond (e2cResponse t mode) s

/-- R61: the timestamp of valid fields, `D * 86400 + h24 * 3600 + mi * 60 + s`, not yet compared with `T_MAX`. -/
def timestampOf (y m d h24 mi s : Nat) : Nat :=
  (dayNumber y m d - Config.epochDaynum) * 86400 + h24 * 3600 + mi * 60 + s

/-- R61, the response to fields in the domain with timestamp `t`. -/
def c2eResponse (t : Nat) : Response :=
  { Response.zero with t := BitVec.ofNat 32 t, err := errBit false }

/-- `C2E year, month, day, hour, minute, second, mode, period` (R61). -/
def execC2e (year month day hour minute second : Nat) (mode : Mode) (period : Period) (s : State) :
    Host.Outcome State Fault Refusal :=
  if c2eOutside year month day hour minute second mode then reject s
  else
    let t := timestampOf year month day (hourOf hour period mode) minute second
    if c2eTooLate t then reject s else respond (c2eResponse t) s

end Sys2Proof.Machine
end

