-- ==== Sys2Proof/Machine/Primitives.lean ====
section
/-! DEFINITION. The leap-year checker and the weekday calculator, 40_calendar_primitives.md R52 and R53. -/

namespace Sys2Proof.Machine

/-- R52, the response. -/
def leapResponse (year : Nat) : Response :=
  { Response.zero with leap := BitVec.ofBool (isLeap year), err := errBit false }

/-- `LEAP year` (R52). -/
def execLeap (year : Nat) (s : State) : Host.Outcome State Fault Refusal :=
  respond (leapResponse year) s

/-- R53, the response to a date in the domain. -/
def wdayResponse (mondayIndex year month day : Nat) : Response :=
  { Response.zero with
    weekday := BitVec.ofNat 3 (weekdayIndex mondayIndex (weekdayOffset year month day)), err := errBit false }

/-- `WDAY year, month, day` (R53). -/
def execWday (year month day : Nat) (s : State) : Host.Outcome State Fault Refusal :=
  if wdayOutside year month day then reject s
  else respond (wdayResponse s.config.mondayIndex year month day) s

end Sys2Proof.Machine
end

