-- ==== Sys2Proof/Machine/Reserved.lean ====
section
/-! DEFINITION. The reserved operation codes 6 and 7, 30_encoding.md R40: an error response, no fault. -/

namespace Sys2Proof.Machine

/-- Operation code 6 (R40). -/
def execRsvd6 (s : State) : Host.Outcome State Fault Refusal := reject s

/-- Operation code 7 (R40). -/
def execRsvd7 (s : State) : Host.Outcome State Fault Refusal := reject s

end Sys2Proof.Machine
end

