-- ==== Sys2Proof/Machine/Dispatch.lean ====
section
/-! DEFINITION. exec: one arm per constructor of Instr, each one call of its meaning. -/

namespace Sys2Proof.Machine

def exec (i : Instr) (s : State) : Host.Outcome State Fault Refusal :=
  match i with
  -- 42_bcd_codec.md
  | .bcdenc v => Sys2Proof.Machine.execBcdenc v s
  | .bcddec b => Sys2Proof.Machine.execBcddec b s
  -- 41_epoch_conversion.md
  | .e2c t mode => Sys2Proof.Machine.execE2c t mode s
  | .c2e year month day hour minute second mode period => Sys2Proof.Machine.execC2e year month day hour minute second mode period s
  -- 40_calendar_primitives.md
  | .wday year month day => Sys2Proof.Machine.execWday year month day s
  | .leap year => Sys2Proof.Machine.execLeap year s
  -- 30_encoding.md R40
  | .rsvd6 => Sys2Proof.Machine.execRsvd6 s
  | .rsvd7 => Sys2Proof.Machine.execRsvd7 s

end Sys2Proof.Machine
end

