-- ==== Sys2Proof/Machine/Step.lean ====
section
/-! DEFINITION. The step: one transaction (00_scope.md R9), and where its request comes from. -/

namespace Sys2Proof.Machine

/-- The block's only step (10_state.md R11): take one request, decode it and execute it; idle where none waits. -/
def step (s : State) : Host.Outcome State Fault Refusal :=
  match nextRequest s with
  | none => idle s
  | some (r, s') => exec (decode r) s'

/-- The table word presented as the very next request, before any that wait (log 5, log 6). -/
def State.withFetchWord (s : State) (nbits w : Nat) : State :=
  { s with requests := Request.ofTableWord nbits w :: s.requests }

end Sys2Proof.Machine
end

