-- ==== Sys2Proof/Machine/HostPort.lean ====
section
/-! DEFINITION. What the host can do to the block between two steps (70_reset_and_hazards.md R76, R79, R80; 20_memory.md
R28).  None of these is a step of the block. -/

namespace Sys2Proof.Machine

/-- The host issues a request; it is answered after those issued before it (20_memory.md R28 (b)).  A request issued
before an earlier one's response has been taken is accepted early, by the handshake of 70_reset_and_hazards.md R79 (c)
(log 14). -/
def issue (r : Request) (s : State) : State := { s with requests := s.requests ++ [r] }

/-- The requests of the transactions in progress, oldest first: issued, and the response not yet taken
(70_reset_and_hazards.md R79 (a), R80). -/
def inProgress (s : State) : List Request := s.answered ++ s.requests

/-- The request on the input ports while a transaction is in progress: the one issued last.  With several accepted early
the spec does not say which of them the ports carry; this is the model's choice (log 16). -/
def drivenRequest (s : State) : Option Request := (inProgress s).getLast?

/-- The ports beside `in.op` the host has to keep: those that the response to some transaction in progress depends on
(70_reset_and_hazards.md R79 (a); 30_encoding.md R32, R36).  That the ports of every one count, not of one alone, is the
model's choice where several were accepted early (log 16). -/
def portsHeld (s : State) : List InPort := (inProgress s).flatMap Request.portsUsed

/-- Driving `r` in place of `d` changes neither `in.op` nor one of the ports `held`. -/
def keepsPorts (held : List InPort) (d r : Request) : Bool :=
  decide (d.op = r.op) && held.all fun p => decide (d.port p = r.port p)

/-- `r` stands in place of the request issued last, among those that wait or, where none waits, among those answered. -/
def replaceDriven (r : Request) (s : State) : State :=
  match s.requests with
  | [] => { s with answered := s.answered.dropLast ++ [r] }
  | _ :: _ => { s with requests := s.requests.dropLast ++ [r] }

/-- The host, or another agent, drives `r` on the input ports.  From the issue of a request until its response has been
taken, ports no operation in progress reads may change freely, and a change of another has no meaning in the transaction
model (70_reset_and_hazards.md R79 (a), R80; 93_implementation_defined.md U8, V2: refuse; log 11).  Which request the
ports belong to and whose ports count, with several accepted early, is the model's choice (log 16).  With no transaction
in progress the ports are the host's. -/
def redrive (r : Request) (s : State) : Host.Outcome State Fault Refusal :=
  match drivenRequest s with
  | none => .next s
  | some d => if keepsPorts (portsHeld s) d r then .next (replaceDriven r s) else .refused .portsChanged

/-- The host takes the oldest response it has not taken, all ports of it together (70_reset_and_hazards.md R79 (b),
20_memory.md R28 (b)), which ends the transaction; where there is none the ports have no value to read (R76,
60_exceptions.md R67; log 4). -/
def takeResponse (s : State) : Host.Outcome (Response × State) Fault Refusal :=
  match s.responses with
  | [] => .fault .noResponse
  | p :: rest => .next (p, { s with answered := s.answered.tail, responses := rest })

/-- Reset: a transaction in progress is abandoned without a response and no response is pending afterwards
(70_reset_and_hazards.md R76); what the builder fixed stays (10_state.md R12; log 12). -/
def hostReset (s : State) : State := { s with requests := [], answered := [], responses := [] }

end Sys2Proof.Machine
end

