-- ==== Sys2Proof/Safety.lean ====
section
/-! DEFINITION. The terms the claims are stated in: what a request is answered, the ranges of the output ports,
the order of instants and the successor of a date. -/

namespace Sys2Proof.Machine

/-- Executing `i` in `s` gives the one response `p` and changes nothing else (00_scope.md R9). -/
def Gives (i : Instr) (s : State) (p : Response) : Prop :=
  exec i s = .next { s with responses := s.responses ++ [p] }

/-- `exec(request)` of 00_scope.md R9 as the host sees it: the responses an idle block built with `c` gives to `r`. -/
def answer (c : Config) (r : Request) : List Response :=
  match exec (decode r) ⟨c, [], [], []⟩ with
  | .next t => t.responses
  | _ => []

/-- The values the output ports can take, 10_state.md R19, third column.  The ports `err`, `period`, `t` and `leap`
take every value of their width. -/
structure InRange (p : Response) : Prop where
  bcd     : p.bcd.toNat ≤ 199
  bin     : p.bin.toNat ≤ 165
  year    : p.year.toNat = 0 ∨ (1970 ≤ p.year.toNat ∧ p.year.toNat ≤ 2106)
  month   : p.month.toNat ≤ 12
  day     : p.day.toNat ≤ 31
  hour    : p.hour.toNat ≤ 23
  minute  : p.minute.toNat ≤ 59
  second  : p.second.toNat ≤ 59
  weekday : p.weekday.toNat ≤ 7

/-- Every response the host can still take has its ports in the ranges of 10_state.md R19. -/
def Ranged (s : State) : Prop := ∀ p ∈ s.responses, InRange p

/-- The responses the host can still take are the answers of the requests they were given to, one each, in the order of
the requests (20_memory.md R28). -/
def Paired (s : State) : Prop := s.responses = s.answered.flatMap (answer s.config)

/-- The eight operands of `C2E` (41_epoch_conversion.md R61). -/
structure Fields where
  year   : Nat
  month  : Nat
  day    : Nat
  hour   : Nat
  minute : Nat
  second : Nat
  mode   : Mode
  period : Period
  deriving DecidableEq, Repr

/-- The `C2E` operation on these operands. -/
def Fields.c2e (f : Fields) : Instr :=
  .c2e f.year f.month f.day f.hour f.minute f.second f.mode f.period

/-- The instant the fields denote, date first, then the 24-hour time: the list order is chronological order
(41_epoch_conversion.md R62 (c)). -/
def Fields.instant (f : Fields) : List Nat :=
  [f.year, f.month, f.day, hourOf f.hour f.period f.mode, f.minute, f.second]

/-- The calendar fields a response of `E2C` carries, read in the mode it was asked for. -/
def fieldsOf (p : Response) (mode : Mode) : Fields :=
  ⟨p.year.toNat, p.month.toNat, p.day.toNat, p.hour.toNat, p.minute.toNat, p.second.toNat, mode,
    Period.ofBit p.period⟩

/-- The calendar successor of a valid date: the next day of the month, of the year, or the next 1 January. -/
def nextDate (y m d : Nat) : Nat × Nat × Nat :=
  if d < daysInMonth y m then (y, m, d + 1) else if m < 12 then (y, m + 1, 1) else (y + 1, 1, 1)

end Sys2Proof.Machine
end

