-- ==== Sys2Proof/Certificates/Slice0/Obligations.lean ====
section
/-! DEFINITION. The statements about the block, in the order of spec/'s files, the last three
beside them.  Wherever a statement says
`exec i s = .next { s with responses := s.responses ++ [p] }` it says that the operation completes, what it answers,
and that it changes nothing else: not the build parameter, not a request in progress, not an earlier response. -/

open Sys2Proof Sys2Proof.Machine

/-! ## Decode and encode (30_encoding.md) -/

/-- R33: each value of `in.op` selects its operation with the ports of its request format (R32) as operands, and its
response format (R34). -/
def Obligations.DecodeSelectsByOpcode : Prop :=
  ∀ r : Request,
    (r.op = 0b000 → decode r = .bcdenc r.v.toNat ∧ portsRead r.op = [.v] ∧ portsAssigned r.op = [.bcd]) ∧
    (r.op = 0b001 → decode r = .bcddec r.b.toNat ∧ portsRead r.op = [.b] ∧ portsAssigned r.op = [.bin]) ∧
    (r.op = 0b010 → (∀ mode : Mode, r.mode = mode.toBit → decode r = .e2c r.t.toNat mode) ∧
      portsRead r.op = [.t, .mode] ∧
      portsAssigned r.op = [.year, .month, .day, .hour, .minute, .second, .period]) ∧
    (r.op = 0b011 → (∀ (mode : Mode) (period : Period), r.mode = mode.toBit → r.period = period.toBit →
        decode r = .c2e r.year.toNat r.month.toNat r.day.toNat r.hour.toNat r.minute.toNat r.second.toNat mode period) ∧
      portsRead r.op = [.year, .month, .day, .hour, .minute, .second, .mode, .period] ∧ portsAssigned r.op = [.t]) ∧
    (r.op = 0b100 → decode r = .wday r.year.toNat r.month.toNat r.day.toNat ∧
      portsRead r.op = [.year, .month, .day] ∧ portsAssigned r.op = [.weekday]) ∧
    (r.op = 0b101 → decode r = .leap r.year.toNat ∧ portsRead r.op = [.year] ∧ portsAssigned r.op = [.leap]) ∧
    (r.op = 0b110 → decode r = .rsvd6 ∧ portsRead r.op = [] ∧ portsAssigned r.op = []) ∧
    (r.op = 0b111 → decode r = .rsvd7 ∧ portsRead r.op = [] ∧ portsAssigned r.op = [])

/-- R38, R41: of the table's rows exactly one selects each value of `in.op`, and the decoder gives that row's
operation. -/
def Obligations.OpcodeTableSelectsOneRow : Prop :=
  ∀ r : Request, ∃ row ∈ opcodeTable,
    row.mnemonic = (decode r).mnemonic ∧ ∀ row' ∈ opcodeTable, row'.selects r.op = true ↔ row' = row

/-- Requests written out from R33 and R32 decode to the operations they stand for (95_test_vectors.md P1, P2). -/
def Obligations.WrittenRequestsDecode : Prop :=
  decode { Request.zero with op := 0b000, v := 0b0111011 } = .bcdenc 59 ∧
  decode { Request.zero with op := 0b001, b := 0x59 } = .bcddec 0x59 ∧
  decode { Request.zero with op := 0b010, t := 0x65E11A7F, mode := 0 } = .e2c 1709251199 .h24 ∧
  decode { Request.zero with op := 0b100, year := 0x07E8, month := 0b0010, day := 0b11101 } = .wday 2024 2 29 ∧
  decode { Request.zero with op := 0b101, year := 0x0838 } = .leap 2104

/-- Whatever values a host leaves on the ports an operation ignores, decoding an encoded well-formed operation gives
it back, with every operand at every value its port admits. -/
def Obligations.DecodeEncodeRoundTrip : Prop :=
  ∀ (base : Request) (i : Instr), i.wellFormed = true → decode (encodeOn base i) = i

/-- Every request selects an operation whose operands fit their ports, and encoding that operation over the same
request changes no port. -/
def Obligations.EncodeDecodeRoundTrip : Prop :=
  ∀ r : Request, (decode r).wellFormed = true ∧ encodeOn r (decode r) = r

/-- R36: the response depends on the ports of the operation's format alone, and `in.period` is ignored by `C2E` in
24-hour mode. -/
def Obligations.IgnoredPortsDoNotMatter : Prop :=
  (∀ (r₁ r₂ : Request) (s : State), r₁.op = r₂.op → (∀ p ∈ portsRead r₁.op, r₁.port p = r₂.port p) →
    exec (decode r₁) s = exec (decode r₂) s) ∧
  (∀ (r : Request) (x : BitVec 1) (s : State), r.op = 3 → r.mode = 0 →
    exec (decode { r with period := x }) s = exec (decode r) s)

/-- R40: the reserved codes answer with `out.err = 1` and every other port 0, whatever the other input ports carry. -/
def Obligations.ReservedCodesReportError : Prop :=
  (∀ s : State, exec .rsvd6 s = .next { s with responses := s.responses ++ [{ Response.zero with err := 1 }] }) ∧
  (∀ s : State, exec .rsvd7 s = .next { s with responses := s.responses ++ [{ Response.zero with err := 1 }] }) ∧
  (∀ r : Request, r.op = 6 → decode r = .rsvd6) ∧ (∀ r : Request, r.op = 7 → decode r = .rsvd7)

/-! ## State, ports and transactions (00_scope.md, 10_state.md, 20_memory.md) -/

/-- R10: the response is a function of the operation and the build parameter: two states that agree on the parameter
get the same one, whatever came before. -/
def Obligations.ResponseDependsOnRequestAlone : Prop :=
  ∀ (i : Instr) (s₁ s₂ : State), s₁.config = s₂.config →
    ∃ p : Response, exec i s₁ = .next { s₁ with responses := s₁.responses ++ [p] } ∧
      exec i s₂ = .next { s₂ with responses := s₂.responses ++ [p] }

/-- R20: a port outside the operation's response format is 0, an error response of `C2E`, `WDAY` or a reserved code
has every other port 0, and the BCD operations assign their result port with or without an error. -/
def Obligations.UnassignedPortsAreZero : Prop :=
  ∀ (r : Request) (s : State) (p : Response), Gives (decode r) s p →
    (∀ o, o ∉ portsAssigned r.op → p.port o = 0) ∧
    (p.err = 1 → r.op ≠ 0 → r.op ≠ 1 → ∀ o, p.port o = 0) ∧
    (r.op = 0 → p.port .bcd = r.v.toNat + 6 * (r.v.toNat / 10)) ∧
    (r.op = 1 → p.port .bin = r.b.toNat - 6 * (r.b.toNat / 16))

/-- R19, third column: every operation's response has its ports in the ranges the table gives. -/
def Obligations.OutputPortRanges : Prop :=
  ∀ (i : Instr) (s : State) (p : Response), i.wellFormed = true → Gives i s p → InRange p

/-- R12: no step and no action of the host writes the build parameter. -/
def Obligations.BuildParameterNeverWritten : Prop :=
  (∀ s t : State, step s = .next t → t.config = s.config) ∧
  (∀ (s t : State) (r : Request), redrive r s = .next t → t.config = s.config) ∧
  (∀ (s t : State) (p : Response), takeResponse s = .next (p, t) → t.config = s.config) ∧
  (∀ (s : State) (r : Request), (issue r s).config = s.config) ∧ (∀ s : State, (hostReset s).config = s.config)

/-- R28: every waiting request receives exactly one response, in the order of the requests, each the answer to its
own request; the responses already given stay; and a request issued to a block in any state is answered after all that
were issued before it.  (The lists are the model's form of the interface, log 1.) -/
def Obligations.ResponsesInRequestOrder : Prop :=
  (∀ s : State, Host.Core.run core s.requests.length s =
    .next { s with
      requests := [], answered := s.answered ++ s.requests,
      responses := s.responses ++ s.requests.flatMap (answer s.config) }) ∧
  (∀ (s : State) (r : Request), Host.Core.run core (s.requests.length + 1) (issue r s) =
    .next { s with
      requests := [], answered := s.answered ++ s.requests ++ [r],
      responses := s.responses ++ s.requests.flatMap (answer s.config) ++ answer s.config r }) ∧
  (∀ (c : Config) (r : Request), (answer c r).length = 1)

/-- A step executes the decoded oldest request (R9, R11), at the state in which that request waits no longer and its
response is still to be taken.  That the requests stand in a list and the step takes the oldest off it is the model's
form of R28 (b) (log 1, DESIGN CHOICE). -/
def Obligations.StepExecutesDecodedRequest : Prop :=
  ∀ (s : State) (r : Request) (rest : List Request), s.requests = r :: rest →
    step s = exec (decode r) { s with requests := rest, answered := s.answered ++ [r] }

/-- With no request waiting a step changes nothing: the model's reading of R11 (log 3). -/
def Obligations.IdleStepChangesNothing : Prop :=
  ∀ s : State, s.requests = [] → step s = .next s

/-- The operation a table word stands for is the one the next step executes, at the state as it was but for the word's
request, whose response is still to be taken: the model's reading of how a word comes to be executed (log 5, log 6). -/
def Obligations.TableWordExecutesNext : Prop :=
  ∀ (s : State) (nbits w : Nat), ∃ i : Instr, decodeTableWord nbits w = some i ∧
    step (s.withFetchWord nbits w) = exec i { s with answered := s.answered ++ [Request.ofTableWord nbits w] }

/-- R82: an idle block answers an issued request in one step, and once the host has taken the response the state is
what it was before. -/
def Obligations.TransactionLeavesNothingBehind : Prop :=
  ∀ (c : Config) (r : Request), ∃ (p : Response) (t : State),
    step (issue r ⟨c, [], [], []⟩) = .next t ∧ takeResponse t = .next (p, ⟨c, [], [], []⟩) ∧ answer c r = [p]

/-- From every state whose untaken responses are in the ranges of R19, a step and every action of the host leads to
such a state. -/
def Obligations.StepKeepsPortRanges : Prop :=
  (∀ s t : State, Ranged s → step s = .next t → Ranged t) ∧
  (∀ (s t : State) (r : Request), Ranged s → redrive r s = .next t → Ranged t) ∧
  (∀ (s t : State) (p : Response), Ranged s → takeResponse s = .next (p, t) → InRange p ∧ Ranged t) ∧
  (∀ (s : State) (r : Request), Ranged s → Ranged (issue r s)) ∧ (∀ s : State, Ranged (hostReset s))

/-- The reset state meets the range invariant. -/
def Obligations.ResetMeetsPortRanges : Prop := Ranged State.reset

/-! ## The calendar helpers (40_calendar_primitives.md) -/

/-- R45: 366 or 365, and the sum of the twelve month lengths. -/
def Obligations.YearIsSumOfMonths : Prop :=
  ∀ y : Nat, daysInYear y = (if y % 4 = 0 ∧ (y % 100 ≠ 0 ∨ y % 400 = 0) then 366 else 365) ∧
    daysInYear y = ((List.range 12).map fun i => daysInMonth y (i + 1)).sum

/-- R48: the sum over the earlier months, and the two tables of the rule. -/
def Obligations.DaysBeforeMonthTable : Prop :=
  (∀ y m : Nat, 1 ≤ m → m ≤ 12 →
    daysBeforeMonth y m = ((List.range (m - 1)).map fun i => daysInMonth y (i + 1)).sum) ∧
  (∀ y : Nat, ((List.range 12).map fun i => daysBeforeMonth y (i + 1)) =
    if isLeap y then [0, 31, 60, 91, 121, 152, 182, 213, 244, 274, 305, 335]
    else [0, 31, 59, 90, 120, 151, 181, 212, 243, 273, 304, 334])

/-- R49: the sum of the lengths of the earlier years is the closed form of the rule, with the rule's values. -/
def Obligations.DaysBeforeYearSum : Prop :=
  (∀ y : Nat, 1 ≤ y → daysBeforeYear y = ((List.range (y - 1)).map fun i => daysInYear (i + 1)).sum ∧
    daysBeforeYear y = 365 * (y - 1) + (y - 1) / 4 - (y - 1) / 100 + (y - 1) / 400) ∧
  daysBeforeYear 1 = 0 ∧ daysBeforeYear 2 = 365 ∧ daysBeforeYear 1970 = 719162 ∧ daysBeforeYear 2024 = 738885 ∧
  daysBeforeYear 2107 = 769200

/-- R50: `dayNumber` counts from 1 January of year 1, is strictly increasing in the order of dates, steps by one from
a date to the next, repeats with 400 years, and has the rule's values and bound. -/
def Obligations.DayNumberCountsDays : Prop :=
  (∀ y m d : Nat, 1 ≤ y → dateValid y m d = true →
    dayNumber y m d = daysBeforeYear y + daysBeforeMonth y m + (d - 1)) ∧
  (∀ y m d y' m' d' : Nat, 1 ≤ y → dateValid y m d = true → 1 ≤ y' → dateValid y' m' d' = true →
    [y, m, d] < [y', m', d'] → dayNumber y m d < dayNumber y' m' d') ∧
  (∀ y m d : Nat, 1 ≤ y → dateValid y m d = true →
    dayNumber (nextDate y m d).1 (nextDate y m d).2.1 (nextDate y m d).2.2 = dayNumber y m d + 1) ∧
  (∀ y m d : Nat, 1 ≤ y → dateValid y m d = true → dayNumber (y + 400) m d = dayNumber y m d + 146097) ∧
  (∀ y m d : Nat, 1 ≤ y → y ≤ 65535 → dateValid y m d = true → dayNumber y m d ≤ 23936165) ∧
  dayNumber 1 1 1 = 0 ∧ dayNumber 1970 1 1 = Config.epochDaynum ∧ dayNumber 2024 1 1 = 738885 ∧
  dayNumber 65535 12 31 = 23936165

/-! ## LEAP and WDAY (40_calendar_primitives.md) -/

/-- R52: `LEAP` answers 1 exactly for the years of the Gregorian rule R44, never with an error. -/
def Obligations.LeapChecksGregorianRule : Prop :=
  (∀ r : Request, r.op = 5 → decode r = .leap r.year.toNat) ∧
  ∀ (year : Nat) (s : State), ∃ p : Response,
    exec (.leap year) s = .next { s with responses := s.responses ++ [p] } ∧
      p = { Response.zero with leap := p.leap } ∧
      (p.leap = 1 ↔ year % 4 = 0 ∧ (year % 100 ≠ 0 ∨ year % 400 = 0))

/-- R53: the weekday of a valid date of a year from 1 on, for every value of `MONDAY_INDEX`; an error with weekday 0
for every other operand. -/
def Obligations.WdayGivesWeekday : Prop :=
  (∀ r : Request, r.op = 4 → decode r = .wday r.year.toNat r.month.toNat r.day.toNat) ∧
  ∀ (year month day : Nat) (s : State),
    (year = 0 ∨ ¬(1 ≤ month ∧ month ≤ 12) ∨ ¬(1 ≤ day ∧ day ≤ daysInMonth year month) →
      exec (.wday year month day) s = .next { s with responses := s.responses ++ [{ Response.zero with err := 1 }] }) ∧
    (1 ≤ year → 1 ≤ month → month ≤ 12 → 1 ≤ day → day ≤ daysInMonth year month → ∃ p : Response,
      exec (.wday year month day) s = .next { s with responses := s.responses ++ [p] } ∧
        p = { Response.zero with weekday := p.weekday } ∧
        p.weekday.toNat = (dayNumber year month day % 7 + s.config.mondayIndex - 1) % 7 + 1 ∧
        1 ≤ p.weekday.toNat ∧ p.weekday.toNat ≤ 7)

/-- DOC0's reference date (R51, R53): 2024-01-01 gets the index of Monday, whichever that is. -/
def Obligations.ReferenceDateIsMonday : Prop :=
  ∀ s : State, ∃ p : Response,
    exec (.wday 2024 1 1) s = .next { s with responses := s.responses ++ [p] } ∧ p.err = 0 ∧
      p.weekday.toNat = s.config.mondayIndex

/-- R54 (a): from a valid date to the next the weekday index advances by one, wrapping from 7 to 1. -/
def Obligations.WeekdayAdvancesDaily : Prop :=
  ∀ (y m d : Nat) (s : State), 1 ≤ y → dateValid y m d = true → ∃ p q : Response,
    Gives (.wday y m d) s p ∧ Gives (.wday (nextDate y m d).1 (nextDate y m d).2.1 (nextDate y m d).2.2) s q ∧
      p.err = 0 ∧ q.err = 0 ∧
      q.weekday.toNat = if p.weekday.toNat = 7 then 1 else p.weekday.toNat + 1

/-- R54 (b): the weekday repeats after 400 years. -/
def Obligations.WeekdayRepeatsEvery400Years : Prop :=
  ∀ (y m d : Nat) (s : State), 1 ≤ y → dateValid y m d = true →
    exec (.wday (y + 400) m d) s = exec (.wday y m d) s

/-- R54 (d): the date of timestamp `t` has the weekday offset `((t div 86400) + 3) mod 7`: day 0 is a Thursday. -/
def Obligations.WeekdayOfTimestamp : Prop :=
  ∀ (t : Nat) (mode : Mode) (s : State), t < 2 ^ 32 → ∃ p q : Response,
    Gives (.e2c t mode) s p ∧ Gives (.wday p.year.toNat p.month.toNat p.day.toNat) s q ∧ q.err = 0 ∧
      q.weekday.toNat = ((t / 86400 + 3) % 7 + s.config.mondayIndex - 1) % 7 + 1

/-! ## E2C and C2E (41_epoch_conversion.md) -/

/-- R56, R57: the table of the 24-hour to 12-hour mapping, the formula of the other one, and that they are inverse. -/
def Obligations.HourFormsAreInverse : Prop :=
  ((List.range 24).map fun h => ((to12h h).1, (to12h h).2.toNat)) =
    [(12, 0), (1, 0), (2, 0), (3, 0), (4, 0), (5, 0), (6, 0), (7, 0), (8, 0), (9, 0), (10, 0), (11, 0),
     (12, 1), (1, 1), (2, 1), (3, 1), (4, 1), (5, 1), (6, 1), (7, 1), (8, 1), (9, 1), (10, 1), (11, 1)] ∧
  (∀ h : Nat, h < 24 → to24h (to12h h).1 (to12h h).2 = h) ∧
  (∀ (h : Nat) (p : Period), 1 ≤ h → h ≤ 12 →
    to24h h p = h % 12 + 12 * p.toNat ∧ to24h h p < 24 ∧ to12h (to24h h p) = (h, p))

/-- R59 (a), (b): both loops of R58 stop because their condition fails, not because the bound on their passes runs
out; they lose no day, the year stays in 1970..2106 for a 32-bit timestamp, and the month in 1..12. -/
def Obligations.LoopsStopByCondition : Prop :=
  (∀ fuel days : Nat, days ≤ fuel →
    let (left, y) := yearLoop fuel days 1970
    left < daysInYear y ∧ 1970 ≤ y ∧ daysBeforeYear y + left = daysBeforeYear 1970 + days ∧
      (days ≤ 49710 → y ≤ 2106)) ∧
  (∀ fuel left y : Nat, left ≤ fuel → left < daysInYear y →
    let (rest, m) := monthLoop y fuel left 1
    rest < daysInMonth y m ∧ 1 ≤ m ∧ m ≤ 12 ∧ daysBeforeMonth y m + rest = left)

/-- R58 with R59 (c), (d): for every 32-bit timestamp `E2C` gives the one valid date with day number
`EPOCH_DAYNUM + t div 86400`, the time of day in the form the mode asks for, the period 0 in 24-hour mode, and no
error. -/
def Obligations.E2cGivesCalendarDate : Prop :=
  (∀ (r : Request) (mode : Mode), r.op = 2 → r.mode = mode.toBit → decode r = .e2c r.t.toNat mode) ∧
  ∀ (t : Nat) (mode : Mode) (s : State), t < 2 ^ 32 → ∃ p : Response,
    exec (.e2c t mode) s = .next { s with responses := s.responses ++ [p] } ∧
      p = { Response.zero with
        year := p.year, month := p.month, day := p.day, hour := p.hour, minute := p.minute, second := p.second,
        period := p.period } ∧
      1970 ≤ p.year.toNat ∧ p.year.toNat ≤ 2106 ∧ dateValid p.year.toNat p.month.toNat p.day.toNat = true ∧
      dayNumber p.year.toNat p.month.toNat p.day.toNat = Config.epochDaynum + t / 86400 ∧
      (∀ y m d : Nat, 1 ≤ y → dateValid y m d = true → dayNumber y m d = Config.epochDaynum + t / 86400 →
        y = p.year.toNat ∧ m = p.month.toNat ∧ d = p.day.toNat) ∧
      p.second.toNat = t % 60 ∧ p.minute.toNat = t / 60 % 60 ∧
      (mode = .h24 → p.hour.toNat = t / 3600 % 24 ∧ p.period = 0) ∧
      (mode = .h12 → 1 ≤ p.hour.toNat ∧ p.hour.toNat ≤ 12 ∧
        p.hour.toNat % 12 + 12 * p.period.toNat = t / 3600 % 24)

/-- R60: one day is 86400 seconds: a timestamp one day later has the next date and the same time of day. -/
def Obligations.DaysAre86400Seconds : Prop :=
  ∀ (t : Nat) (mode : Mode) (s : State), t + 86400 < 2 ^ 32 → ∃ p q : Response,
    Gives (.e2c t mode) s p ∧ Gives (.e2c (t + 86400) mode) s q ∧
      (q.year.toNat, q.month.toNat, q.day.toNat) = nextDate p.year.toNat p.month.toNat p.day.toNat ∧
      q.hour = p.hour ∧ q.minute = p.minute ∧ q.second = p.second ∧ q.period = p.period

/-- R61: `C2E` gives the timestamp of valid fields from 1970 to `T_MAX`, and an error with timestamp 0 otherwise. -/
def Obligations.C2eGivesTimestamp : Prop :=
  (∀ (r : Request) (mode : Mode) (period : Period), r.op = 3 → r.mode = mode.toBit → r.period = period.toBit →
    decode r = .c2e r.year.toNat r.month.toNat r.day.toNat r.hour.toNat r.minute.toNat r.second.toNat mode period) ∧
  ∀ (f : Fields) (s : State),
    let valid := 1970 ≤ f.year ∧ (1 ≤ f.month ∧ f.month ≤ 12) ∧ (1 ≤ f.day ∧ f.day ≤ daysInMonth f.year f.month) ∧
      f.second < 60 ∧ f.minute < 60 ∧ (f.mode = .h24 → f.hour ≤ 23) ∧ (f.mode = .h12 → 1 ≤ f.hour ∧ f.hour ≤ 12)
    let h24 := if f.mode = .h12 then f.hour % 12 + 12 * f.period.toNat else f.hour
    let t := (dayNumber f.year f.month f.day - 719162) * 86400 + h24 * 3600 + f.minute * 60 + f.second
    (valid ∧ t ≤ 4294967295 → ∃ p : Response,
      exec (.c2e f.year f.month f.day f.hour f.minute f.second f.mode f.period) s =
          .next { s with responses := s.responses ++ [p] } ∧
        p = { Response.zero with t := p.t } ∧ p.t.toNat = t) ∧
    (¬valid ∨ t > 4294967295 →
      exec (.c2e f.year f.month f.day f.hour f.minute f.second f.mode f.period) s =
        .next { s with responses := s.responses ++ [{ Response.zero with err := 1 }] })

/-- R62 (a): converting a timestamp to calendar fields and these back gives the timestamp. -/
def Obligations.C2eInvertsE2c : Prop :=
  ∀ (t : Nat) (mode : Mode) (s : State), t < 2 ^ 32 → ∃ p q : Response,
    Gives (.e2c t mode) s p ∧ Gives (fieldsOf p mode).c2e s q ∧ q.err = 0 ∧ q.t.toNat = t

/-- R62 (b): converting accepted calendar fields to a timestamp and that back gives the fields, with the period 0
where the mode is 24-hour. -/
def Obligations.E2cInvertsC2e : Prop :=
  ∀ (f : Fields) (s : State) (q : Response), Gives f.c2e s q → q.err = 0 → ∃ p : Response,
    Gives (.e2c q.t.toNat f.mode) s p ∧ p.err = 0 ∧
      fieldsOf p f.mode = { f with period := if f.mode = .h12 then f.period else .am }

/-- R62 (c): among accepted requests `C2E` is strictly increasing in chronological order, in one mode and across the
two, so equal timestamps mean equal instants. -/
def Obligations.C2eIsChronological : Prop :=
  ∀ (f g : Fields) (s : State) (p q : Response), Gives f.c2e s p → p.err = 0 → Gives g.c2e s q → q.err = 0 →
    (f.instant < g.instant → p.t.toNat < q.t.toNat) ∧ (p.t = q.t ↔ f.instant = g.instant)

/-- R62 (d): the mode changes only the hour and the period of `E2C`, by the mapping of R56. -/
def Obligations.ModesDifferInHourOnly : Prop :=
  ∀ (t : Nat) (s : State), t < 2 ^ 32 → ∃ p q : Response, Gives (.e2c t .h24) s p ∧ Gives (.e2c t .h12) s q ∧
    q = { p with hour := q.hour, period := q.period } ∧
    (q.hour.toNat, Period.ofBit q.period) = to12h p.hour.toNat

/-! ## BCDENC and BCDDEC (42_bcd_codec.md) -/

/-- R63: tens digit in the high nibble, units digit in the low one, the formula's value for every 7-bit operand, and
an error exactly above 99. -/
def Obligations.BcdencPacksDigits : Prop :=
  (∀ r : Request, r.op = 0 → decode r = .bcdenc r.v.toNat) ∧
  ∀ (v : Nat) (s : State), v < 128 → ∃ p : Response,
    exec (.bcdenc v) s = .next { s with responses := s.responses ++ [p] } ∧
      p = { Response.zero with bcd := p.bcd, err := p.err } ∧
      p.bcd.toNat = v + 6 * (v / 10) ∧ p.bcd.toNat / 16 = v / 10 ∧ p.bcd.toNat % 16 = v % 10 ∧
      (p.err = 1 ↔ v > 99)

/-- R64: ten times the high nibble plus the low one for every byte, and an error exactly where a nibble is above 9. -/
def Obligations.BcddecUnpacksDigits : Prop :=
  (∀ r : Request, r.op = 1 → decode r = .bcddec r.b.toNat) ∧
  ∀ (b : Nat) (s : State), b < 256 → ∃ p : Response,
    exec (.bcddec b) s = .next { s with responses := s.responses ++ [p] } ∧
      p = { Response.zero with bin := p.bin, err := p.err } ∧
      p.bin.toNat = b - 6 * (b / 16) ∧ p.bin.toNat = 10 * (b / 16) + b % 16 ∧ p.bin.toNat ≤ 165 ∧
      (p.err = 1 ↔ b / 16 > 9 ∨ b % 16 > 9)

/-- R65: decoding inverts encoding for every operand of the encoder, with equal error bits; encoding inverts decoding
on the valid BCD bytes; those are the bytes the encoder gives without error, and the ones the decoder accepts. -/
def Obligations.BcdCodecRoundTrip : Prop :=
  (∀ (v : Nat) (s : State), v < 128 → ∃ p q : Response,
    Gives (.bcdenc v) s p ∧ Gives (.bcddec p.bcd.toNat) s q ∧ q.bin.toNat = v ∧ q.err = p.err ∧
      (p.err = 0 ↔ v ≤ 99)) ∧
  (∀ (c : Nat) (s : State), c < 256 → c / 16 ≤ 9 → c % 16 ≤ 9 → ∃ p q : Response,
    Gives (.bcddec c) s p ∧ Gives (.bcdenc p.bin.toNat) s q ∧ q.bcd.toNat = c ∧ p.err = 0 ∧ q.err = 0 ∧
      p.bin.toNat ≤ 99) ∧
  (∀ (c : Nat) (s : State), c < 256 →
    ((∃ (v : Nat) (p : Response), v < 128 ∧ Gives (.bcdenc v) s p ∧ p.err = 0 ∧ p.bcd.toNat = c) ↔
      c / 16 ≤ 9 ∧ c % 16 ≤ 9)) ∧
  (∀ (c : Nat) (s : State) (q : Response), c < 256 → Gives (.bcddec c) s q →
    (q.err = 0 ↔ ∃ (v : Nat) (p : Response), v < 128 ∧ Gives (.bcdenc v) s p ∧ p.err = 0 ∧ p.bcd.toNat = c))

/-- R66: the second, minute, hour, day and month of `E2C` and every weekday the block gives without error are in the
encoder's domain; a year of `E2C` is not: it is above 99. -/
def Obligations.CalendarFieldsEncode : Prop :=
  (∀ (t : Nat) (mode : Mode) (s : State) (p : Response), t < 2 ^ 32 → Gives (.e2c t mode) s p →
    (∀ n ∈ [p.second.toNat, p.minute.toNat, p.hour.toNat, p.day.toNat, p.month.toNat], ∃ q : Response,
      Gives (.bcdenc n) s q ∧ q.err = 0) ∧ 99 < p.year.toNat) ∧
  (∀ (y m d : Nat) (s : State) (p : Response), Gives (.wday y m d) s p → p.err = 0 → ∃ q : Response,
    Gives (.bcdenc p.weekday.toNat) s q ∧ q.err = 0)

/-! ## Errors (60_exceptions.md) -/

/-- R68: no operation and no step faults or is refused; each has its successor. -/
def Obligations.NoFaultAndNoRefusal : Prop :=
  (∀ (i : Instr) (s : State), ∃ p : Response, exec i s = .next { s with responses := s.responses ++ [p] }) ∧
  (∀ s : State, ∃ t : State, step s = .next t)

/-- R69: the complete causes of `out.err = 1`, operation by operation, with the end of time as the instant
2106-02-07 06:28:15, and the result ports of an error response. -/
def Obligations.ErrorCausesComplete : Prop :=
  ∀ (r : Request) (s : State) (p : Response), Gives (decode r) s p →
    (r.op = 0 → (p.err = 1 ↔ r.v.toNat > 99)) ∧
    (r.op = 1 → (p.err = 1 ↔ r.b.toNat / 16 > 9 ∨ r.b.toNat % 16 > 9)) ∧
    (r.op = 2 → p.err = 0) ∧
    (r.op = 3 → (p.err = 1 ↔
      r.year.toNat < 1970 ∨ ¬(1 ≤ r.month.toNat ∧ r.month.toNat ≤ 12) ∨
      ¬(1 ≤ r.day.toNat ∧ r.day.toNat ≤ daysInMonth r.year.toNat r.month.toNat) ∨
      r.minute.toNat ≥ 60 ∨ r.second.toNat ≥ 60 ∨ (r.mode = 0 ∧ r.hour.toNat > 23) ∨
      (r.mode = 1 ∧ (r.hour.toNat = 0 ∨ r.hour.toNat > 12)) ∨
      [2106, 2, 7, 6, 28, 15] < [r.year.toNat, r.month.toNat, r.day.toNat,
        hourOf r.hour.toNat (Period.ofBit r.period) (Mode.ofBit r.mode), r.minute.toNat, r.second.toNat])) ∧
    (r.op = 4 → (p.err = 1 ↔
      r.year.toNat = 0 ∨ ¬(1 ≤ r.month.toNat ∧ r.month.toNat ≤ 12) ∨
      ¬(1 ≤ r.day.toNat ∧ r.day.toNat ≤ daysInMonth r.year.toNat r.month.toNat))) ∧
    (r.op = 5 → p.err = 0) ∧
    (r.op = 6 ∨ r.op = 7 → p.err = 1) ∧
    (p.err = 1 → p = { Response.zero with
      err := 1,
      bcd := if r.op = 0 then BitVec.ofNat 8 (r.v.toNat + 6 * (r.v.toNat / 10)) else 0,
      bin := if r.op = 1 then BitVec.ofNat 8 (r.b.toNat - 6 * (r.b.toNat / 16)) else 0 })

/-! ## Reset and the host's side (70_reset_and_hazards.md) -/

/-- R76: after reset, and after a reset in the middle of anything, no transaction is in progress and no response is
pending; a read of the output ports is a fault of the host, and a step without a request presents no response. -/
def Obligations.ResetLeavesBlockIdle : Prop :=
  inProgress State.reset = [] ∧ takeResponse State.reset = .fault .noResponse ∧
  (∀ t : State, step State.reset = .next t → takeResponse t = .fault .noResponse) ∧
  ∀ s : State, inProgress (hostReset s) = [] ∧ takeResponse (hostReset s) = .fault .noResponse ∧
    ∀ t : State, step (hostReset s) = .next t → takeResponse t = .fault .noResponse

/-- R77: the first request after reset may be any, and is answered according to its operation, in every build and
after a reset in the middle of anything. -/
def Obligations.AnyFirstRequestIsAnswered : Prop :=
  (∀ (s : State) (r : Request), ∃ p : Response,
    step (issue r (hostReset s)) = .next { hostReset s with answered := [r], responses := [p] } ∧
      Gives (decode r) (hostReset s) p ∧ answer s.config r = [p]) ∧
  (∀ r : Request, ∃ p : Response,
    step (issue r State.reset) = .next { State.reset with answered := [r], responses := [p] } ∧
      Gives (decode r) State.reset p)

/-- R79 (a), R80: from the issue of a request until its response has been taken, a change of `in.op` or of a port its
operation reads is refused, and a change of other ports changes no response, now or in any number of steps; with no
transaction in progress the ports are free.  The refusal is the model's choice (log 11), and so is which of several
requests accepted early the ports carry, the last, and that each of them holds its ports (log 16). -/
def Obligations.OnlyIgnoredPortsMayChange : Prop :=
  (∀ (s t : State) (r : Request), redrive r s = .next t →
    t.responses = s.responses ∧ t.answered.map (answer s.config) = s.answered.map (answer s.config) ∧
      ∀ n : Nat, ∃ s' t' : State, Host.Core.run core n s = .next s' ∧ Host.Core.run core n t = .next t' ∧
        t'.responses = s'.responses) ∧
  (∀ (s : State) (r d : Request) (older : List Request), s.answered ++ s.requests = older ++ [d] →
    let held := r.op = d.op ∧ ∀ q ∈ s.answered ++ s.requests, ∀ p ∈ portsRead q.op,
      (p = .period ∧ q.op = 3 ∧ q.mode = 0) ∨ r.port p = d.port p
    (held → ∃ t : State, redrive r s = .next t ∧ t.answered ++ t.requests = older ++ [r] ∧
      t.answered.length = s.answered.length) ∧
    (¬held → redrive r s = .refused .portsChanged)) ∧
  (∀ (s : State) (r : Request), s.answered = [] → s.requests = [] → redrive r s = .next s)

/-- R79 (b), R28 (b): where responses wait to be taken, the host takes the oldest, whole, and its transaction ends.
Where none waits, before the first response (R76) or after the last one taken, the read is a fault of the host: for the
time after the first response that is the model's reading (log 4, DEDUCED). -/
def Obligations.HostTakesOldestResponse : Prop :=
  (∀ (s : State) (p : Response) (rest : List Response), s.responses = p :: rest →
    takeResponse s = .next (p, { s with answered := s.answered.tail, responses := rest })) ∧
  (∀ s : State, s.responses = [] → takeResponse s = .fault .noResponse)

/-! ## The build parameter, and responses with their requests (00_scope.md, 10_state.md, 20_memory.md) -/

/-- R5, R12: `MONDAY_INDEX` takes each of the values 1..7 in exactly one build and no other value; the default is 1. -/
def Obligations.MondayIndexTakesEachDay : Prop :=
  (∀ c : Config, 1 ≤ c.mondayIndex ∧ c.mondayIndex ≤ 7) ∧
  (∀ n : Nat, 1 ≤ n → n ≤ 7 → ∃ c : Config, c.mondayIndex = n ∧ ∀ c' : Config, c'.mondayIndex = n → c' = c) ∧
  Config.default.mondayIndex = 1

/-- R28, R79 (b): from every state in which the untaken responses are the answers of the requests they were given to, in
their order, a step and every action of the host leads to such a state; and a response taken there is the one answer of
the oldest request whose response was untaken. -/
def Obligations.ResponsesStayWithRequests : Prop :=
  (∀ s t : State, Paired s → step s = .next t → Paired t) ∧
  (∀ (s t : State) (r : Request), Paired s → redrive r s = .next t → Paired t) ∧
  (∀ (s t : State) (p : Response), Paired s → takeResponse s = .next (p, t) →
    Paired t ∧ ∃ r : Request, s.answered = r :: t.answered ∧ answer s.config r = [p]) ∧
  (∀ (s : State) (r : Request), Paired s → Paired (issue r s)) ∧ (∀ s : State, Paired (hostReset s))

/-- The reset state meets the pairing invariant. -/
def Obligations.ResetMeetsPairing : Prop := Paired State.reset
end

