-- ==== Sys2Proof/Laws/Calendar.lean ====
section
/-! SUPPORT. The small lemmas of the calendar helpers and the operand checks, which unfold them once. -/

namespace Sys2Proof.Machine

theorem isLeap_iff {y : Nat} : isLeap y = true ↔ y % 4 = 0 ∧ (y % 100 ≠ 0 ∨ y % 400 = 0) := by simp [isLeap]

theorem dateValid_iff {y m d : Nat} :
    dateValid y m d = true ↔ (1 ≤ m ∧ m ≤ 12) ∧ 1 ≤ d ∧ d ≤ daysInMonth y m := by simp [dateValid]

theorem validBcd_iff {b : Nat} : validBcd b = true ↔ b / 16 ≤ 9 ∧ b % 16 ≤ 9 := by
  have h : b &&& 15 = b % 16 := Nat.and_two_pow_sub_one_eq_mod b 4
  simp [validBcd, highNibble, lowNibble, Nat.shiftRight_eq_div_pow, h]

theorem timeValid_iff {h mi s : Nat} {mode : Mode} :
    timeValid h mi s mode = true ↔
      s < 60 ∧ mi < 60 ∧ (mode = .h24 → h ≤ 23) ∧ (mode = .h12 → 1 ≤ h ∧ h ≤ 12) := by
  cases mode <;> simp [timeValid, hourValid, and_assoc]

theorem daysInYear_eq (y : Nat) : daysInYear y = 365 + (isLeap y).toNat := by
  unfold daysInYear; cases isLeap y <;> rfl

/-- Every month has 28 to 31 days. -/
theorem daysInMonth_bounds (y : Nat) {m : Nat} (h₁ : 1 ≤ m) (h₂ : m ≤ 12) :
    28 ≤ daysInMonth y m ∧ daysInMonth y m ≤ 31 := by
  cases hl : isLeap y <;> interval_cases m <;> simp [daysInMonth, hl]

@[simp] theorem daysBeforeMonth_one (y : Nat) : daysBeforeMonth y 1 = 0 := rfl

/-- A month later the days before it are more by the month's length. -/
theorem daysBeforeMonth_succ (y : Nat) {m : Nat} (h : 1 ≤ m) :
    daysBeforeMonth y (m + 1) = daysBeforeMonth y m + daysInMonth y m := by
  obtain ⟨n, rfl⟩ := Nat.exists_eq_add_of_le' h
  rfl

/-- A year later the days before it are more by the year's length. -/
theorem daysBeforeYear_succ {y : Nat} (h : 1 ≤ y) :
    daysBeforeYear (y + 1) = daysBeforeYear y + daysInYear y := by
  obtain ⟨n, rfl⟩ := Nat.exists_eq_add_of_le' h
  have h4 : (n + 1) / 4 = n / 4 + if (n + 1) % 4 = 0 then 1 else 0 := by split <;> omega
  have h100 : (n + 1) / 100 = n / 100 + if (n + 1) % 100 = 0 then 1 else 0 := by split <;> omega
  have h400 : (n + 1) / 400 = n / 400 + if (n + 1) % 400 = 0 then 1 else 0 := by split <;> omega
  have hle : n / 100 ≤ n / 4 := by omega
  simp only [daysBeforeYear, daysInYear, isLeap_iff, Nat.add_sub_cancel, h4, h100, h400]
  have d100 : (n + 1) % 400 = 0 → (n + 1) % 100 = 0 := by omega
  have d4 : (n + 1) % 100 = 0 → (n + 1) % 4 = 0 := by omega
  by_cases e4 : (n + 1) % 4 = 0 <;> by_cases e100 : (n + 1) % 100 = 0 <;> by_cases e400 : (n + 1) % 400 = 0 <;>
    simp_all <;> omega

/-- 400 years are 146097 days. -/
theorem daysBeforeYear_add_400 {y : Nat} (h : 1 ≤ y) : daysBeforeYear (y + 400) = daysBeforeYear y + 146097 := by
  simp only [daysBeforeYear]; omega

/-- The Gregorian rule repeats with 400 years. -/
theorem isLeap_add_400 (y : Nat) : isLeap (y + 400) = isLeap y := by
  rw [Bool.eq_iff_iff, isLeap_iff, isLeap_iff]; omega

end Sys2Proof.Machine
end

