-- ==== Sys2Proof/Laws/Decode.lean ====
section
/-! SUPPORT. The small lemmas of the decoder's pieces. -/

namespace Sys2Proof

@[simp] theorem Mode.ofBit_toBit (m : Mode) : Mode.ofBit m.toBit = m := by cases m <;> rfl
@[simp] theorem Period.ofBit_toBit (p : Period) : Period.ofBit p.toBit = p := by cases p <;> rfl
@[simp] theorem Mode.toBit_ofBit (x : BitVec 1) : (Mode.ofBit x).toBit = x := by revert x; decide
@[simp] theorem Period.toBit_ofBit (x : BitVec 1) : (Period.ofBit x).toBit = x := by revert x; decide
@[simp] theorem Period.toNat_toBit (p : Period) : p.toBit.toNat = p.toNat := by cases p <;> rfl

theorem InPort.fits_iff {p : InPort} {n : Nat} : p.fits n = true ↔ n < 2 ^ p.width := by simp [InPort.fits]

/-- An operand that fits its port survives being driven on it. -/
theorem InPort.toNat_ofNat_of_fits {p : InPort} {n : Nat} (h : p.fits n = true) :
    (BitVec.ofNat p.width n).toNat = n := by
  rw [BitVec.toNat_ofNat]; exact Nat.mod_eq_of_lt (InPort.fits_iff.mp h)

/-- Any value on a port fits it. -/
theorem Request.port_fits (r : Request) (p : InPort) : p.fits (r.port p) = true := by
  rw [InPort.fits_iff]; cases p <;> exact BitVec.isLt _

end Sys2Proof
end

