-- ==== Sys2Proof/Laws/State.lean ====
section
/-! SUPPORT. The small lemmas of State: one per field per update, so that no later proof unfolds a record update. -/

namespace Sys2Proof.Machine

@[simp] theorem respond_next (p : Response) (s : State) :
    respond p s = .next { s with responses := s.responses ++ [p] } := rfl

@[simp] theorem reset_config : State.reset.config = Config.default := rfl
@[simp] theorem reset_requests : State.reset.requests = [] := rfl
@[simp] theorem reset_answered : State.reset.answered = [] := rfl
@[simp] theorem reset_responses : State.reset.responses = [] := rfl

@[simp] theorem withFetchWord_config (s : State) (n w : Nat) : (s.withFetchWord n w).config = s.config := rfl
@[simp] theorem withFetchWord_requests (s : State) (n w : Nat) :
    (s.withFetchWord n w).requests = Request.ofTableWord n w :: s.requests := rfl
@[simp] theorem withFetchWord_answered (s : State) (n w : Nat) : (s.withFetchWord n w).answered = s.answered := rfl
@[simp] theorem withFetchWord_responses (s : State) (n w : Nat) : (s.withFetchWord n w).responses = s.responses := rfl

@[simp] theorem issue_config (r : Request) (s : State) : (issue r s).config = s.config := rfl
@[simp] theorem issue_requests (r : Request) (s : State) : (issue r s).requests = s.requests ++ [r] := rfl
@[simp] theorem issue_answered (r : Request) (s : State) : (issue r s).answered = s.answered := rfl
@[simp] theorem issue_responses (r : Request) (s : State) : (issue r s).responses = s.responses := rfl

@[simp] theorem hostReset_config (s : State) : (hostReset s).config = s.config := rfl
@[simp] theorem hostReset_requests (s : State) : (hostReset s).requests = [] := rfl
@[simp] theorem hostReset_answered (s : State) : (hostReset s).answered = [] := rfl
@[simp] theorem hostReset_responses (s : State) : (hostReset s).responses = [] := rfl

@[simp] theorem replaceDriven_config (r : Request) (s : State) : (replaceDriven r s).config = s.config := by
  unfold replaceDriven; split <;> rfl
@[simp] theorem replaceDriven_responses (r : Request) (s : State) : (replaceDriven r s).responses = s.responses := by
  unfold replaceDriven; split <;> rfl

end Sys2Proof.Machine
end

