-- ==== Sys2Proof/Laws/Ops.lean ====
section
/-! SUPPORT. Once for each shared operation, everything it can do. -/

namespace Sys2Proof.Machine

/-- Responding adds one response and changes nothing else. -/
theorem respond_eq_next {p : Response} {s t : State} (h : respond p s = .next t) :
    t.config = s.config ∧ t.requests = s.requests ∧ t.answered = s.answered ∧ t.responses = s.responses ++ [p] := by
  cases h; exact ⟨rfl, rfl, rfl, rfl⟩

/-- Rejecting is responding with `out.err = 1` and 0 on every other port. -/
@[simp] theorem reject_next (s : State) :
    reject s = .next { s with responses := s.responses ++ [{ Response.zero with err := 1 }] } := rfl

@[simp] theorem idle_next (s : State) : idle s = .next s := rfl

@[simp] theorem nextRequest_nil {s : State} (h : s.requests = []) : nextRequest s = none := by
  simp [nextRequest, h]

@[simp] theorem nextRequest_cons {s : State} {r : Request} {rest : List Request} (h : s.requests = r :: rest) :
    nextRequest s = some (r, { s with requests := rest, answered := s.answered ++ [r] }) := by
  simp [nextRequest, h]

/-- The next request is the oldest one; it joins the answered ones, and nothing else changes. -/
theorem nextRequest_eq_some {s s' : State} {r : Request} (h : nextRequest s = some (r, s')) :
    s.requests = r :: s'.requests ∧ s'.answered = s.answered ++ [r] ∧ s'.config = s.config ∧
      s'.responses = s.responses := by
  cases hr : s.requests with
  | nil => simp [hr] at h
  | cons r₀ rest =>
    rw [nextRequest_cons hr] at h
    obtain ⟨rfl, rfl⟩ := Prod.mk.inj (Option.some.inj h)
    exact ⟨rfl, rfl, rfl, rfl⟩

/-- Taking a response that exists: the oldest one, and the oldest answered request with it. -/
theorem takeResponse_eq_next {s t : State} {p : Response} (h : takeResponse s = .next (p, t)) :
    s.responses = p :: t.responses ∧ t.answered = s.answered.tail ∧ t.config = s.config ∧
      t.requests = s.requests := by
  unfold takeResponse at h
  cases hs : s.responses with
  | nil => simp [hs] at h
  | cons q rest =>
    simp only [hs, Host.Outcome.next.injEq, Prod.mk.injEq] at h
    obtain ⟨rfl, rfl⟩ := h
    exact ⟨rfl, rfl, rfl, rfl⟩

/-- Driving `r` in place of `d` keeps the operation code and every held port. -/
theorem keepsPorts_iff {held : List InPort} {d r : Request} :
    keepsPorts held d r = true ↔ d.op = r.op ∧ ∀ p ∈ held, d.port p = r.port p := by
  simp [keepsPorts]

theorem mem_portsHeld {s : State} {p : InPort} : p ∈ portsHeld s ↔ ∃ q ∈ inProgress s, p ∈ q.portsUsed := by
  simp [portsHeld]

theorem drivenRequest_eq_none {s : State} : drivenRequest s = none ↔ inProgress s = [] := by
  simp [drivenRequest]

/-- The driven request is the last in progress: the last that waits or, where none waits, the last answered. -/
theorem drivenRequest_eq_some {s : State} {d : Request} (h : drivenRequest s = some d) :
    (∃ older, s.requests = older ++ [d]) ∨ (s.requests = [] ∧ ∃ older, s.answered = older ++ [d]) := by
  unfold drivenRequest inProgress at h
  cases hs : s.requests with
  | nil =>
    rw [hs, List.append_nil] at h
    exact .inr ⟨rfl, List.getLast?_eq_some_iff.mp h⟩
  | cons r₀ rest =>
    rw [List.getLast?_append, hs] at h
    exact .inl (List.getLast?_eq_some_iff.mp (by simpa using h))

/-- Replacing the last of the requests that wait. -/
theorem replaceDriven_waiting {r d : Request} {s : State} {older : List Request} (h : s.requests = older ++ [d]) :
    replaceDriven r s = { s with requests := older ++ [r] } := by
  unfold replaceDriven
  split
  · next h' => simp [h'] at h
  · next h' => rw [h, List.dropLast_concat]

/-- Replacing the last of the answered requests, where none waits. -/
theorem replaceDriven_answered {r d : Request} {s : State} {older : List Request} (h : s.requests = [])
    (ha : s.answered = older ++ [d]) : replaceDriven r s = { s with answered := older ++ [r] } := by
  simp [replaceDriven, h, ha]

/-- Driving the ports: with no transaction in progress nothing changes; otherwise the driven request is replaced by one
that keeps `in.op` and every held port, where it stands. -/
theorem redrive_eq_next {s t : State} {r : Request} (h : redrive r s = .next t) :
    (inProgress s = [] ∧ t = s) ∨
    ∃ d older, d.op = r.op ∧ (∀ p ∈ portsHeld s, d.port p = r.port p) ∧
      ((s.requests = older ++ [d] ∧ t = { s with requests := older ++ [r] }) ∨
        (s.requests = [] ∧ s.answered = older ++ [d] ∧ t = { s with answered := older ++ [r] })) := by
  unfold redrive at h
  cases hd : drivenRequest s with
  | none =>
    simp only [hd, Host.Outcome.next.injEq] at h
    exact .inl ⟨drivenRequest_eq_none.mp hd, h.symm⟩
  | some d =>
    simp only [hd] at h
    split at h
    · next hk =>
      obtain ⟨ho, hp⟩ := keepsPorts_iff.mp hk
      have ht := (Host.Outcome.next.inj h).symm
      obtain ⟨older, hr⟩ | ⟨hn, older, ha⟩ := drivenRequest_eq_some hd
      · exact .inr ⟨d, older, ho, hp, .inl ⟨hr, by rw [ht, replaceDriven_waiting hr]⟩⟩
      · exact .inr ⟨d, older, ho, hp, .inr ⟨hn, ha, by rw [ht, replaceDriven_answered hn ha]⟩⟩
    · cases h

end Sys2Proof.Machine
end

