-- ==== Sys2Proof/Laws/PerInstr.lean ====
section
/-! SUPPORT. The statements made of every instruction, as syntax: the family `Encodes`. -/

/-- The instruction has its row in the opcode table under its mnemonic, and every encoding of it, whatever the ignored
ports carry, holds that row's operation code (30_encoding.md R38). -/
def Sys2Proof.Laws.Encodes.Statement (i : Sys2Proof.Instr) : Prop :=
  ∃ row ∈ Sys2Proof.opcodeTable, row.mnemonic = i.mnemonic ∧
    ∀ base : Sys2Proof.Request, row.selects (Sys2Proof.encodeOn base i).op = true

namespace Sys2Proof.Laws.Encodes

theorem bcdenc (v : Nat) : Statement (.bcdenc v) := ⟨_, .head _, rfl, fun _ => by simp [encodeOn, OpcodeRow.selects]⟩
theorem bcddec (b : Nat) : Statement (.bcddec b) := ⟨_, .tail _ (.head _), rfl, fun _ => by simp [encodeOn, OpcodeRow.selects]⟩
theorem e2c (t : Nat) (mode : Mode) : Statement (.e2c t mode) :=
  ⟨_, .tail _ (.tail _ (.head _)), rfl, fun _ => by simp [encodeOn, OpcodeRow.selects]⟩
theorem c2e (year month day hour minute second : Nat) (mode : Mode) (period : Period) :
    Statement (.c2e year month day hour minute second mode period) :=
  ⟨_, .tail _ (.tail _ (.tail _ (.head _))), rfl, fun _ => by simp [encodeOn, OpcodeRow.selects]⟩
theorem wday (year month day : Nat) : Statement (.wday year month day) :=
  ⟨_, .tail _ (.tail _ (.tail _ (.tail _ (.head _)))), rfl, fun _ => by simp [encodeOn, OpcodeRow.selects]⟩
theorem leap (year : Nat) : Statement (.leap year) :=
  ⟨_, .tail _ (.tail _ (.tail _ (.tail _ (.tail _ (.head _))))), rfl, fun _ => by simp [encodeOn, OpcodeRow.selects]⟩
theorem rsvd6 : Statement .rsvd6 :=
  ⟨_, .tail _ (.tail _ (.tail _ (.tail _ (.tail _ (.tail _ (.head _)))))), rfl, fun _ => by simp [encodeOn, OpcodeRow.selects]⟩
theorem rsvd7 : Statement .rsvd7 :=
  ⟨_, .tail _ (.tail _ (.tail _ (.tail _ (.tail _ (.tail _ (.tail _ (.head _))))))), rfl, fun _ => by simp [encodeOn, OpcodeRow.selects]⟩

end Sys2Proof.Laws.Encodes
end

