-- ==== Sys2Proof/Tests/Slice0.lean ====
section
/-! SUPPORT. The model's own tests.  Expected values come from 95_test_vectors.md and the worked examples of the
rules, never from the model.  Then the witnesses: for every statement with hypotheses, values that meet them. -/

namespace Sys2Proof.Tests

open Sys2Proof.Machine

/-- The state an outcome leads to. -/
def stateOf (o : Host.Outcome State Fault Refusal) : Option State :=
  match o with
  | .next s => some s
  | _ => none

/-- An outcome that leads to a state is that next state. -/
theorem next_of_stateOf {o : Host.Outcome State Fault Refusal} {s : State} (h : stateOf o = some s) : o = .next s := by
  cases o <;> simp_all [stateOf]

/-- An idle block built with `MONDAY_INDEX = mondayOffset + 1`. -/
def idleBlock (mondayOffset : Fin 7) : State := ⟨⟨mondayOffset⟩, [], [], []⟩

/-- The responses of one step on one request, from an idle block with `MONDAY_INDEX = 1`. -/
def responsesTo (r : Request) : Option (List Response) := (stateOf (step (issue r (idleBlock 0)))).map (·.responses)

/-- The response with 1 on `out.err` and 0 elsewhere. -/
def errorOnly : Response := { Response.zero with err := 1 }

/-- Every input port but `in.op` at all ones (95_test_vectors.md 2.9). -/
def allOnes (op : BitVec 3) : Request :=
  ⟨op, 127, 255, 4294967295, 65535, 15, 31, 31, 63, 63, 1, 1⟩

/-! ## WellFormed: one ill-formed term for each check, and the largest operands that fit -/

theorem test_wellFormed_refuses_wide_v : (Instr.bcdenc 128).wellFormed = false := by decide
theorem test_wellFormed_refuses_wide_b : (Instr.bcddec 256).wellFormed = false := by decide
theorem test_wellFormed_refuses_wide_t : (Instr.e2c 4294967296 .h24).wellFormed = false := by decide
theorem test_wellFormed_refuses_wide_c2e :
    (Instr.c2e 65536 1 1 0 0 0 .h24 .am).wellFormed = false ∧ (Instr.c2e 2024 16 1 0 0 0 .h24 .am).wellFormed = false ∧
    (Instr.c2e 2024 1 32 0 0 0 .h24 .am).wellFormed = false ∧ (Instr.c2e 2024 1 1 32 0 0 .h24 .am).wellFormed = false ∧
    (Instr.c2e 2024 1 1 0 64 0 .h24 .am).wellFormed = false ∧
    (Instr.c2e 2024 1 1 0 0 64 .h24 .am).wellFormed = false := by decide
theorem test_wellFormed_refuses_wide_wday :
    (Instr.wday 65536 1 1).wellFormed = false ∧ (Instr.wday 2024 16 1).wellFormed = false ∧
    (Instr.wday 2024 1 32).wellFormed = false := by decide
theorem test_wellFormed_refuses_wide_leap : (Instr.leap 65536).wellFormed = false := by decide

/-! ## Decode: a request of each operation, written out from 30_encoding.md R32 and R33 (95_test_vectors.md section 4) -/

theorem test_decode_bcdenc : decode { Request.zero with op := 0b000, v := 0b0111011 } = .bcdenc 59 := by decide
theorem test_decode_bcddec : decode { Request.zero with op := 0b001, b := 0b01011001 } = .bcddec 0x59 := by decide
theorem test_decode_e2c :
    decode { Request.zero with op := 0b010, t := 0x65E11A7F, mode := 1, period := 1 } = .e2c 1709251199 .h12 := by decide
theorem test_decode_c2e :
    decode { Request.zero with
      op := 0b011, year := 0x0834, month := 0b0010, day := 0b11100, hour := 0b01011, minute := 0b011110,
      second := 0b000000, mode := 1, period := 1 } = .c2e 2100 2 28 11 30 0 .h12 .pm := by decide
theorem test_decode_wday :
    decode { Request.zero with op := 0b100, year := 0x07E8, month := 0b0010, day := 0b11101 } = .wday 2024 2 29 := by
  decide
theorem test_decode_leap : decode { Request.zero with op := 0b101, year := 0x0838 } = .leap 2104 := by decide
theorem test_decode_rsvd6 : decode (allOnes 0b110) = .rsvd6 := by decide
theorem test_decode_rsvd7 : decode (allOnes 0b111) = .rsvd7 := by decide
theorem test_decode_table_words :
    decodeTableWord 8 3 = some (.c2e 0 0 0 0 0 0 .h24 .am) ∧ decodeTableWord 8 5 = some (.leap 0) ∧
    decodeTableWord 8 7 = some .rsvd7 := by decide

/-! ## One transaction of each operation -/

/-- 42_bcd_codec.md R63: the worked example, and 127 gives `0xC7` with an error. -/
theorem test_bcdenc :
    responsesTo { Request.zero with op := 0, v := 59 } = some [{ Response.zero with bcd := 0x59 }] ∧
    responsesTo { Request.zero with op := 0, v := 127 } = some [{ Response.zero with bcd := 0xC7, err := 1 }] := by
  decide

/-- 42_bcd_codec.md R64: the worked example, and `0xFF` gives 165 with an error. -/
theorem test_bcddec :
    responsesTo { Request.zero with op := 1, b := 0x59 } = some [{ Response.zero with bin := 59 }] ∧
    responsesTo { Request.zero with op := 1, b := 0xFF } = some [{ Response.zero with bin := 165, err := 1 }] := by
  decide

/-- 95_test_vectors.md 2.4: the largest timestamp in 24-hour form. -/
theorem test_e2c_last_second :
    responsesTo { Request.zero with op := 2, t := 4294967295 } =
      some [{ Response.zero with year := 2106, month := 2, day := 7, hour := 6, minute := 28, second := 15 }] := by decide

/-- 41_epoch_conversion.md R58: the second example, 29 February in 12-hour form. -/
theorem test_e2c_leap_day :
    responsesTo { Request.zero with op := 2, t := 1709251199, mode := 1 } =
      some [{ Response.zero with
        year := 2024, month := 2, day := 29, hour := 11, minute := 59, second := 59, period := 1 }] := by decide

/-- 95_test_vectors.md P4, first request. -/
theorem test_c2e_pm :
    stateOf (exec (.c2e 2100 2 28 11 30 0 .h12 .pm) (idleBlock 0)) =
      some ⟨⟨0⟩, [], [], [{ Response.zero with t := 4107540600 }]⟩ := by decide

/-- 95_test_vectors.md 2.7, 2.8: the last accepted second, and the one after it. -/
theorem test_c2e_end_of_time :
    stateOf (exec (.c2e 2106 2 7 6 28 15 .h24 .am) (idleBlock 0)) =
      some ⟨⟨0⟩, [], [], [{ Response.zero with t := 4294967295 }]⟩ ∧
    stateOf (exec (.c2e 2106 2 7 6 28 16 .h24 .am) (idleBlock 0)) = some ⟨⟨0⟩, [], [], [errorOnly]⟩ := by decide

/-- 95_test_vectors.md 2.2: 2023-12-31 is a Sunday, 7 with `MONDAY_INDEX = 1` and 1 with `MONDAY_INDEX = 2`. -/
theorem test_wday_sunday :
    stateOf (exec (.wday 2023 12 31) (idleBlock 0)) = some ⟨⟨0⟩, [], [], [{ Response.zero with weekday := 7 }]⟩ ∧
    stateOf (exec (.wday 2023 12 31) (idleBlock 1)) = some ⟨⟨1⟩, [], [], [{ Response.zero with weekday := 1 }]⟩ := by decide

/-- 95_test_vectors.md 2.2, 2.3: the last date of the domain, and 29 February 1900. -/
theorem test_wday_domain :
    responsesTo { Request.zero with op := 4, year := 65535, month := 12, day := 31 } =
      some [{ Response.zero with weekday := 2 }] ∧
    responsesTo { Request.zero with op := 4, year := 1900, month := 2, day := 29 } = some [errorOnly] := by decide

/-- 40_calendar_primitives.md R52: the corner cases. -/
theorem test_leap_centuries :
    stateOf (exec (.leap 1900) (idleBlock 0)) = some ⟨⟨0⟩, [], [], [Response.zero]⟩ ∧
    stateOf (exec (.leap 2000) (idleBlock 0)) = some ⟨⟨0⟩, [], [], [{ Response.zero with leap := 1 }]⟩ := by decide

/-- 95_test_vectors.md 2.9: every ignored port at all ones. -/
theorem test_leap_ignored_ports :
    responsesTo { allOnes 5 with year := 2024 } = some [{ Response.zero with leap := 1 }] := by decide

/-- 95_test_vectors.md 2.9. -/
theorem test_reserved : responsesTo (allOnes 6) = some [errorOnly] ∧ responsesTo { Request.zero with op := 7 } = some [errorOnly] := by
  decide

/-! ## The helpers, from the values the rules state -/

/-- 40_calendar_primitives.md R49 and R50. -/
theorem test_day_numbers :
    daysBeforeYear 2107 = 769200 ∧ dayNumber 1970 1 1 = 719162 ∧ dayNumber 2024 2 29 = 738944 ∧
    dayNumber 65535 12 31 = 23936165 := by decide

/-- 95_test_vectors.md 2.4: 31 December of a leap year, and the day after 2100-02-28. -/
theorem test_dates_of_days : dateOfDays 20088 = (2024, 12, 31) ∧ dateOfDays 47541 = (2100, 3, 1) := by decide

/-! ## The host's side -/

/-- 70_reset_and_hazards.md R76: nothing to read after reset; 20_memory.md R28: the older of two responses comes first. -/
theorem test_take : takeResponse State.reset = .fault .noResponse ∧
    takeResponse ⟨⟨0⟩, [], [allOnes 6, allOnes 5], [errorOnly, Response.zero]⟩ =
      .next (errorOnly, ⟨⟨0⟩, [], [allOnes 5], [Response.zero]⟩) := ⟨rfl, rfl⟩

/-- 70_reset_and_hazards.md R79 (a): `in.b` may change while `BCDENC` waits, `in.v` may not. -/
theorem test_redrive_waiting :
    stateOf (redrive { Request.zero with b := 255 } ⟨⟨0⟩, [Request.zero], [], []⟩) =
      some ⟨⟨0⟩, [{ Request.zero with b := 255 }], [], []⟩ ∧
    stateOf (redrive { Request.zero with v := 1 } ⟨⟨0⟩, [Request.zero], [], []⟩) = none := by decide

/-- A block whose response to `BCDENC` 0 has been given and not taken. -/
def untakenBlock : State := ⟨⟨0⟩, [], [Request.zero], [Response.zero]⟩

/-- 70_reset_and_hazards.md R79 (a), R80: the same while the response to `BCDENC` 0 has been given and not taken; when it
has been taken the ports are free. -/
theorem test_redrive_answered :
    stateOf (redrive { Request.zero with b := 255 } untakenBlock) =
      some { untakenBlock with answered := [{ Request.zero with b := 255 }] } ∧
    redrive { Request.zero with v := 1 } untakenBlock = .refused .portsChanged ∧
    stateOf (redrive { Request.zero with v := 1 } (idleBlock 0)) = some (idleBlock 0) := ⟨by decide, rfl, by decide⟩

/-- A table word runs as the first instruction after reset. -/
theorem test_withFetchWord :
    stateOf (step (State.reset.withFetchWord 8 2)) =
      some ⟨Config.default, [], [{ Request.zero with op := 2 }],
        [{ Response.zero with year := 1970, month := 1, day := 1 }]⟩ := by decide

/-! ## Witnesses: the hypotheses of the statements can be met -/

/-- DecodeSelectsByOpcode, and the decode clauses of the result statements: every code, both values of both bits. -/
theorem witness_DecodeSelectsByOpcode :
    (∀ k : BitVec 3, (allOnes k).op = k) ∧ (allOnes 2).mode = Mode.h12.toBit ∧
    ({ allOnes 2 with mode := 0 } : Request).mode = Mode.h24.toBit ∧ (allOnes 3).period = Period.pm.toBit ∧
    ({ allOnes 3 with period := 0 } : Request).period = Period.am.toBit := by decide

/-- DecodeEncodeRoundTrip, OutputPortRanges: every operation with the largest operands its ports carry. -/
theorem witness_DecodeEncodeRoundTrip :
    (Instr.bcdenc 127).wellFormed = true ∧ (Instr.bcddec 255).wellFormed = true ∧
    (Instr.e2c 4294967295 .h12).wellFormed = true ∧ (Instr.c2e 65535 15 31 31 63 63 .h12 .pm).wellFormed = true ∧
    (Instr.wday 65535 15 31).wellFormed = true ∧ (Instr.leap 65535).wellFormed = true ∧
    Instr.rsvd6.wellFormed = true ∧ Instr.rsvd7.wellFormed = true := by decide

/-- IgnoredPortsDoNotMatter: two requests that differ on every ignored port; a `C2E` request in 24-hour mode. -/
theorem witness_IgnoredPortsDoNotMatter :
    ({ allOnes 3 with mode := 0 } : Request).op = 3 ∧ ({ allOnes 3 with mode := 0 } : Request).mode = 0 ∧
    (allOnes 5).op = ({ Request.zero with op := 5, year := 65535 } : Request).op ∧
    ∀ p ∈ portsRead (allOnes 5).op, (allOnes 5).port p = ({ Request.zero with op := 5, year := 65535 } : Request).port p := by
  decide

/-- ReservedCodesReportError: a request of each reserved code. -/
theorem witness_ReservedCodesReportError : (allOnes 6).op = 6 ∧ (allOnes 7).op = 7 := by decide

/-- ResponseDependsOnRequestAlone: states with equal parameter and different lists. -/
theorem witness_ResponseDependsOnRequestAlone :
    (idleBlock 3).config = (State.mk ⟨3⟩ [allOnes 0] [allOnes 7] [errorOnly]).config := by decide

/-- UnassignedPortsAreZero, ErrorCausesComplete: a response of every operation, with an error where it has one. -/
theorem witness_ErrorCausesComplete :
    Gives (decode (allOnes 0)) (idleBlock 0) { Response.zero with bcd := 0xC7, err := 1 } ∧
    Gives (decode (allOnes 1)) (idleBlock 0) { Response.zero with bin := 165, err := 1 } ∧
    Gives (decode { Request.zero with op := 2 }) (idleBlock 0) { Response.zero with year := 1970, month := 1, day := 1 } ∧
    Gives (decode (allOnes 3)) (idleBlock 0) errorOnly ∧ Gives (decode (allOnes 4)) (idleBlock 0) errorOnly ∧
    Gives (decode (allOnes 5)) (idleBlock 0) Response.zero ∧ Gives (decode (allOnes 6)) (idleBlock 0) errorOnly ∧
    Gives (decode (allOnes 7)) (idleBlock 0) errorOnly :=
  ⟨next_of_stateOf (by decide), next_of_stateOf (by decide), next_of_stateOf (by decide), next_of_stateOf (by decide),
    next_of_stateOf (by decide), next_of_stateOf (by decide), next_of_stateOf (by decide), next_of_stateOf (by decide)⟩

/-- UnassignedPortsAreZero: an error response that is neither of the BCD operations. -/
theorem witness_UnassignedPortsAreZero :
    Gives (decode (allOnes 4)) (idleBlock 0) errorOnly ∧ errorOnly.err = 1 ∧ (allOnes 4).op ≠ 0 ∧ (allOnes 4).op ≠ 1 :=
  ⟨next_of_stateOf (by decide), by decide, by decide, by decide⟩

/-- OutputPortRanges: the largest values of the BCD ports, the last date, a weekday. -/
theorem witness_OutputPortRanges :
    Gives (.bcdenc 127) (idleBlock 0) { Response.zero with bcd := 199, err := 1 } ∧
    Gives (.bcddec 255) (idleBlock 0) { Response.zero with bin := 165, err := 1 } ∧
    Gives (.e2c 4294967295 .h24) (idleBlock 0)
      { Response.zero with year := 2106, month := 2, day := 7, hour := 6, minute := 28, second := 15 } ∧
    Gives (.wday 65535 12 31) (idleBlock 5) { Response.zero with weekday := 7 } :=
  ⟨next_of_stateOf (by decide), next_of_stateOf (by decide), next_of_stateOf (by decide), next_of_stateOf (by decide)⟩

/-- A state with a request waiting, and an untaken response at the edge of its range with the request it answers. -/
def busyBlock : State := ⟨⟨6⟩, [Request.zero], [{ allOnes 0 with b := 0 }], [{ Response.zero with bcd := 199, err := 1 }]⟩

/-- BuildParameterNeverWritten, StepKeepsPortRanges, StepExecutesDecodedRequest, ResponsesStayWithRequests,
OnlyIgnoredPortsMayChange, HostTakesOldestResponse: a step, a change of an ignored port, a taken response, and a state in the ranges. -/
theorem witness_StepKeepsPortRanges :
    Ranged busyBlock ∧ Paired busyBlock ∧ busyBlock.requests = [Request.zero] ∧
    busyBlock.responses = [{ Response.zero with bcd := 199, err := 1 }] ∧
    (∃ t, step busyBlock = .next t) ∧
    redrive { Request.zero with b := 255 } busyBlock = .next { busyBlock with requests := [{ Request.zero with b := 255 }] } ∧
    takeResponse busyBlock =
      .next ({ Response.zero with bcd := 199, err := 1 }, { busyBlock with answered := [], responses := [] }) := by
  refine ⟨fun p hp => ?_, show _ = _ by decide, rfl, rfl, ⟨_, rfl⟩, next_of_stateOf (by decide), rfl⟩
  rw [List.mem_singleton.mp hp]
  exact ⟨by decide, by decide, by decide, by decide, by decide, by decide, by decide, by decide, by decide⟩

/-- OnlyIgnoredPortsMayChange: an ignored port changes, a port that is read, the operation; `in.period` under `C2E` in
24-hour and in 12-hour mode; a port only an older request reads; and the list the clauses speak of, with the last request
waiting and with it answered. -/
theorem witness_OnlyIgnoredPortsMayChange :
    keepsPorts Request.zero.portsUsed Request.zero { Request.zero with b := 255 } = true ∧
    keepsPorts Request.zero.portsUsed Request.zero { Request.zero with v := 1 } = false ∧
    keepsPorts Request.zero.portsUsed Request.zero (allOnes 7) = false ∧
    InPort.period ∉ ({ allOnes 3 with mode := 0 } : Request).portsUsed ∧ InPort.period ∈ (allOnes 3).portsUsed ∧
    redrive { Request.zero with v := 127, b := 1 } ⟨⟨6⟩, [], [allOnes 1, Request.zero], []⟩ = .refused .portsChanged ∧
    busyBlock.answered ++ busyBlock.requests = [{ allOnes 0 with b := 0 }] ++ [Request.zero] ∧
    untakenBlock.answered ++ untakenBlock.requests = [] ++ [Request.zero] :=
  ⟨by decide, by decide, by decide, by decide, by decide, rfl, by decide, by decide⟩

/-- IdleStepChangesNothing, and the empty case of HostTakesOldestResponse. -/
theorem witness_IdleStepChangesNothing : State.reset.requests = [] ∧ State.reset.responses = [] := by decide

/-- MondayIndexTakesEachDay: the ends of the range, and the build each belongs to. -/
theorem witness_MondayIndexTakesEachDay :
    (1 : Nat) ≤ 1 ∧ (1 : Nat) ≤ 7 ∧ (7 : Nat) ≤ 7 ∧ (⟨0⟩ : Config).mondayIndex = 1 ∧ (⟨6⟩ : Config).mondayIndex = 7 := by
  decide

/-- ResetLeavesBlockIdle: the steps its hypotheses speak of exist. -/
theorem witness_ResetLeavesBlockIdle :
    (∃ t, step State.reset = .next t) ∧ ∃ t, step (hostReset busyBlock) = .next t := ⟨⟨_, rfl⟩, ⟨_, rfl⟩⟩

/-- DaysBeforeMonthTable, DaysBeforeYearSum, HourFormsAreInverse: the ends of the ranges. -/
theorem witness_ranges : (1 : Nat) ≤ 1 ∧ (1 : Nat) ≤ 12 ∧ (12 : Nat) ≤ 12 ∧ (0 : Nat) < 24 ∧ (23 : Nat) < 24 := by decide

/-- DayNumberCountsDays, WeekdayAdvancesDaily, WeekdayRepeatsEvery400Years: the first and the last date, a leap day, the
end of a month and of a year, and dates in order by day, month and year. -/
theorem witness_DayNumberCountsDays :
    dateValid 1 1 1 = true ∧ dateValid 65535 12 31 = true ∧ dateValid 2024 2 29 = true ∧ dateValid 2023 2 28 = true ∧
    dateValid 2023 12 31 = true ∧ [2024, 2, 28] < [2024, 2, 29] ∧ [2023, 2, 28] < [2023, 12, 31] ∧
    [2023, 12, 31] < [2024, 2, 29] := by decide

/-- WdayGivesWeekday: each cause of an error at its edge, and the two ends of the domain. -/
theorem witness_WdayGivesWeekday :
    (0 : Nat) = 0 ∧ ¬(1 ≤ 0 ∧ 0 ≤ 12) ∧ ¬(1 ≤ 13 ∧ 13 ≤ 12) ∧ ¬(1 ≤ 0 ∧ 0 ≤ daysInMonth 2024 1) ∧
    ¬(1 ≤ 29 ∧ 29 ≤ daysInMonth 2023 2) ∧ 29 ≤ daysInMonth 2024 2 ∧ 1 ≤ daysInMonth 1 1 ∧
    31 ≤ daysInMonth 65535 12 := by decide

/-- LoopsStopByCondition: the days of the largest timestamp, and the last day of a leap year. -/
theorem witness_LoopsStopByCondition : 49710 ≤ 49710 ∧ 365 ≤ 365 ∧ 365 < daysInYear 2024 := by decide

/-- E2cGivesCalendarDate, C2eInvertsE2c, ModesDifferInHourOnly, WeekdayOfTimestamp, DaysAre86400Seconds,
CalendarFieldsEncode: the largest timestamps, both modes, and the date the uniqueness clause speaks of. -/
theorem witness_E2cGivesCalendarDate :
    4294967295 < 2 ^ 32 ∧ 4294880895 + 86400 < 2 ^ 32 ∧ Mode.h24 = .h24 ∧ Mode.h12 = .h12 ∧ dateValid 2106 2 7 = true ∧
    dayNumber 2106 2 7 = Config.epochDaynum + 4294967295 / 86400 := by decide

/-- The last accepted instant in 24-hour form, and a leap day in 12-hour form. -/
def lastInstant : Fields := ⟨2106, 2, 7, 6, 28, 15, .h24, .pm⟩

/-- The leap day of 95_test_vectors.md 2.7. -/
def leapDay : Fields := ⟨2024, 2, 29, 11, 59, 59, .h12, .pm⟩

/-- E2cInvertsC2e, C2eIsChronological: two accepted requests in different modes, in chronological order, and two of one
instant. -/
theorem witness_C2eIsChronological :
    Gives leapDay.c2e (idleBlock 0) { Response.zero with t := 1709251199 } ∧
    Gives lastInstant.c2e (idleBlock 0) { Response.zero with t := 4294967295 } ∧
    ({ Response.zero with t := 4294967295 } : Response).err = 0 ∧ leapDay.instant < lastInstant.instant ∧
    lastInstant.instant = ({ lastInstant with mode := .h12, period := .am } : Fields).instant :=
  ⟨next_of_stateOf (by decide), next_of_stateOf (by decide), by decide, by decide, by decide⟩

/-- C2eGivesTimestamp: valid fields with the largest timestamp, and each cause of an error at its edge. -/
theorem witness_C2eGivesTimestamp :
    (1970 ≤ 2106 ∧ (1 ≤ 2 ∧ 2 ≤ 12) ∧ (1 ≤ 7 ∧ 7 ≤ daysInMonth 2106 2) ∧ 15 < 60 ∧ 28 < 60 ∧ 6 ≤ 23 ∧
      (dayNumber 2106 2 7 - 719162) * 86400 + 6 * 3600 + 28 * 60 + 15 ≤ 4294967295) ∧
    ¬(1970 ≤ 1969) ∧ ¬(1 ≤ 13 ∧ 13 ≤ 12) ∧ ¬(1 ≤ 29 ∧ 29 ≤ daysInMonth 2100 2) ∧ ¬(60 < 60) ∧ ¬(24 ≤ 23) ∧
    ¬(1 ≤ 0 ∧ 0 ≤ 12) ∧ ¬(1 ≤ 13 ∧ 13 ≤ 12) ∧
    (dayNumber 2106 2 7 - 719162) * 86400 + 6 * 3600 + 28 * 60 + 16 > 4294967295 := by decide

/-- BcdencPacksDigits, BcddecUnpacksDigits, BcdCodecRoundTrip: the ends of the ports and of the domain. -/
theorem witness_BcdCodecRoundTrip :
    127 < 128 ∧ 255 < 256 ∧ 0x99 < 256 ∧ 0x99 / 16 ≤ 9 ∧ 0x99 % 16 ≤ 9 ∧
    Gives (.bcddec 0x99) (idleBlock 0) { Response.zero with bin := 99 } :=
  ⟨by decide, by decide, by decide, by decide, by decide, next_of_stateOf (by decide)⟩

/-- CalendarFieldsEncode: a response of `E2C` and an accepted one of `WDAY`. -/
theorem witness_CalendarFieldsEncode :
    Gives (.e2c 31535999 .h24) (idleBlock 0)
      { Response.zero with year := 1970, month := 12, day := 31, hour := 23, minute := 59, second := 59 } ∧
    Gives (.wday 2024 1 1) (idleBlock 6) { Response.zero with weekday := 7 } :=
  ⟨next_of_stateOf (by decide), next_of_stateOf (by decide)⟩

end Sys2Proof.Tests
end

/-! ## The decoder: an equation per operation code (30_encoding.md R33) -/

namespace Sys2Proof

theorem opcode_cases (x : BitVec 3) :
    x = 0 ∨ x = 1 ∨ x = 2 ∨ x = 3 ∨ x = 4 ∨ x = 5 ∨ x = 6 ∨ x = 7 := by
  revert x; decide

theorem decode_eq_bcdenc {r : Request} (h : r.op = 0) : decode r = .bcdenc r.v.toNat := by
  simp [decode, h]

theorem decode_eq_bcddec {r : Request} (h : r.op = 1) : decode r = .bcddec r.b.toNat := by
  simp [decode, h]

theorem decode_eq_e2c {r : Request} (h : r.op = 2) : decode r = .e2c r.t.toNat (Mode.ofBit r.mode) := by
  simp [decode, h]

theorem decode_eq_c2e {r : Request} (h : r.op = 3) :
    decode r = .c2e r.year.toNat r.month.toNat r.day.toNat r.hour.toNat r.minute.toNat r.second.toNat
      (Mode.ofBit r.mode) (Period.ofBit r.period) := by
  simp [decode, h]

theorem decode_eq_wday {r : Request} (h : r.op = 4) :
    decode r = .wday r.year.toNat r.month.toNat r.day.toNat := by
  simp [decode, h]

theorem decode_eq_leap {r : Request} (h : r.op = 5) : decode r = .leap r.year.toNat := by
  simp [decode, h]

theorem decode_eq_rsvd6 {r : Request} (h : r.op = 6) : decode r = .rsvd6 := by
  simp [decode, h]

theorem decode_eq_rsvd7 {r : Request} (h : r.op = 7) : decode r = .rsvd7 := by
  simp [decode, h]

/-- The decoded operation keeps the request's operation code. -/
theorem encodeOn_decode_op (base r : Request) : (encodeOn base (decode r)).op = r.op := by
  obtain h | h | h | h | h | h | h | h := opcode_cases r.op
  · rw [decode_eq_bcdenc h, h]; rfl
  · rw [decode_eq_bcddec h, h]; rfl
  · rw [decode_eq_e2c h, h]; rfl
  · rw [decode_eq_c2e h, h]; rfl
  · rw [decode_eq_wday h, h]; rfl
  · rw [decode_eq_leap h, h]; rfl
  · rw [decode_eq_rsvd6 h, h]; rfl
  · rw [decode_eq_rsvd7 h, h]; rfl

end Sys2Proof

/-! ## The response as a function of the build parameter and the operation (10_state.md R10) -/

namespace Sys2Proof.Machine

/-- The response to an operation in a block built with `c`; `exec_eq_next` says that it is what `exec` gives. -/
def response (c : Config) : Instr → Response
  | .bcdenc v => bcdencResponse v
  | .bcddec b => bcddecResponse b
  | .e2c t mode => e2cResponse t mode
  | .c2e y m d h mi s mode period =>
    if c2eOutside y m d h mi s mode || c2eTooLate (timestampOf y m d (hourOf h period mode) mi s) then errorResponse
    else c2eResponse (timestampOf y m d (hourOf h period mode) mi s)
  | .wday y m d => if wdayOutside y m d then errorResponse else wdayResponse c.mondayIndex y m d
  | .leap y => leapResponse y
  | .rsvd6 => errorResponse
  | .rsvd7 => errorResponse

/-- Executing an operation adds its one response and changes nothing else. -/
theorem exec_eq_next (i : Instr) (s : State) :
    exec i s = .next { s with responses := s.responses ++ [response s.config i] } := by
  cases i with
  | c2e y m d h mi sec mode period =>
    cases ho : c2eOutside y m d h mi sec mode <;>
      cases hl : c2eTooLate (timestampOf y m d (hourOf h period mode) mi sec) <;>
        simp [exec, execC2e, response, ho, hl, errorResponse, errBit]
  | wday y m d =>
    cases ho : wdayOutside y m d <;> simp [exec, execWday, response, ho, errorResponse, errBit]
  | bcdenc | bcddec | e2c | leap | rsvd6 | rsvd7 => rfl

/-- `C2E` reports fields outside its domain and instants past `T_MAX`, and gives the timestamp of all others
(41_epoch_conversion.md R61). -/
theorem response_c2e_cases (c : Config) (y m d h mi s : Nat) (mode : Mode) (period : Period) :
    ((c2eOutside y m d h mi s mode = true ∨ c2eTooLate (timestampOf y m d (hourOf h period mode) mi s) = true) ∧
      response c (.c2e y m d h mi s mode period) = errorResponse) ∨
    (c2eOutside y m d h mi s mode = false ∧ c2eTooLate (timestampOf y m d (hourOf h period mode) mi s) = false ∧
      response c (.c2e y m d h mi s mode period) = c2eResponse (timestampOf y m d (hourOf h period mode) mi s)) := by
  cases ho : c2eOutside y m d h mi s mode <;>
    cases hl : c2eTooLate (timestampOf y m d (hourOf h period mode) mi s) <;> simp [response, ho, hl]

/-- `WDAY` reports what is no date from year 1 on, and gives the weekday index of all others
(40_calendar_primitives.md R53). -/
theorem response_wday_cases (c : Config) (y m d : Nat) :
    (wdayOutside y m d = true ∧ response c (.wday y m d) = errorResponse) ∨
    (wdayOutside y m d = false ∧ response c (.wday y m d) = wdayResponse c.mondayIndex y m d) := by
  cases ho : wdayOutside y m d <;> simp [response, ho]

theorem gives_iff {i : Instr} {s : State} {p : Response} : Gives i s p ↔ p = response s.config i := by
  simp [Gives, exec_eq_next, eq_comm]

/-! ### The ports an operation leaves at 0 (10_state.md R20) -/

theorem errorResponse_port (o : OutPort) : errorResponse.port o = 0 := by
  cases o <;> rfl

/-- A port outside the response format of the operation's code (30_encoding.md R34) is 0. -/
theorem response_port_eq_zero (c : Config) (i : Instr) {base : Request} {o : OutPort}
    (ho : o ∉ portsAssigned (encodeOn base i).op) : (response c i).port o = 0 := by
  cases i with
  | bcdenc v =>
    change o ∉ portsAssigned 0 at ho
    cases o with
    | bcd => exact absurd (by decide) ho
    | _ => rfl
  | bcddec b =>
    change o ∉ portsAssigned 1 at ho
    cases o with
    | bin => exact absurd (by decide) ho
    | _ => rfl
  | e2c t mode =>
    change o ∉ portsAssigned 2 at ho
    cases o with
    | bcd | bin | t | weekday | leap => rfl
    | _ => exact absurd (by decide) ho
  | c2e y m d h mi s mode period =>
    change o ∉ portsAssigned 3 at ho
    obtain ⟨-, hp⟩ | ⟨-, -, hp⟩ := response_c2e_cases c y m d h mi s mode period <;> rw [hp]
    · exact errorResponse_port o
    · cases o with
      | t => exact absurd (by decide) ho
      | _ => rfl
  | wday y m d =>
    change o ∉ portsAssigned 4 at ho
    obtain ⟨-, hp⟩ | ⟨-, hp⟩ := response_wday_cases c y m d <;> rw [hp]
    · exact errorResponse_port o
    · cases o with
      | weekday => exact absurd (by decide) ho
      | _ => rfl
  | leap y =>
    change o ∉ portsAssigned 5 at ho
    cases o with
    | leap => exact absurd (by decide) ho
    | _ => rfl
  | rsvd6 | rsvd7 => exact errorResponse_port o

/-- An operation other than the BCD ones that reports an error gives the error response. -/
theorem response_eq_errorResponse {c : Config} {i : Instr} (henc : ∀ v, i ≠ .bcdenc v) (hdec : ∀ b, i ≠ .bcddec b)
    (herr : (response c i).err = 1) : response c i = errorResponse := by
  cases i with
  | bcdenc v => exact absurd rfl (henc v)
  | bcddec b => exact absurd rfl (hdec b)
  | e2c t mode => cases herr
  | leap y => cases herr
  | c2e y m d h mi s mode period =>
    obtain ⟨-, hp⟩ | ⟨-, -, hp⟩ := response_c2e_cases c y m d h mi s mode period
    · exact hp
    · rw [hp] at herr
      cases herr
  | wday y m d =>
    obtain ⟨-, hp⟩ | ⟨-, hp⟩ := response_wday_cases c y m d
    · exact hp
    · rw [hp] at herr
      cases herr
  | rsvd6 | rsvd7 => rfl

/-! ### The result ports of the BCD operations (42_bcd_codec.md R63, R64) -/

theorem bcdencResponse_bcd {v : Nat} (hv : v < 128) : (bcdencResponse v).bcd.toNat = v + 6 * (v / 10) := by
  have hfit : v + 6 * (v / 10) < 256 := by omega
  simpa [bcdencResponse, bcdOf] using hfit

theorem highNibble_eq_div (b : Nat) : highNibble b = b / 16 := Nat.shiftRight_eq_div_pow b 4

theorem bcddecResponse_bin {b : Nat} (hb : b < 256) : (bcddecResponse b).bin.toNat = b - 6 * (b / 16) := by
  have hfit : b - 6 * (b / 16) < 256 := by omega
  simpa [bcddecResponse, binOf, highNibble_eq_div] using hfit

/-! ## The obligations of 10_state.md -/

/-- Settles O8: the response is `response` of the build parameter and the operation. -/
theorem responseDependsOnRequestAlone : Obligations.ResponseDependsOnRequestAlone := by
  intro i s₁ s₂ hconfig
  refine ⟨response s₁.config i, exec_eq_next i s₁, ?_⟩
  rw [hconfig]
  exact exec_eq_next i s₂

/-- Settles O9, clause by clause from the response of the decoded operation, which keeps the operation code. -/
theorem unassignedPortsAreZero : Obligations.UnassignedPortsAreZero := by
  intro r s p hp
  obtain rfl := gives_iff.mp hp
  have hop := encodeOn_decode_op r r
  refine ⟨fun o ho => ?_, fun herr h0 h1 o => ?_, fun h => ?_, fun h => ?_⟩
  · exact response_port_eq_zero s.config (decode r) (hop.symm ▸ ho)
  · have henc (v : Nat) : decode r ≠ .bcdenc v := fun hd => h0 (by rw [← hop, hd]; rfl)
    have hdec (b : Nat) : decode r ≠ .bcddec b := fun hd => h1 (by rw [← hop, hd]; rfl)
    rw [response_eq_errorResponse henc hdec herr, errorResponse_port]
  · rw [decode_eq_bcdenc h]
    exact bcdencResponse_bcd r.v.isLt
  · rw [decode_eq_bcddec h]
    exact bcddecResponse_bin r.b.isLt

end Sys2Proof.Machine

/-! ## The step as one transaction, and the requests answered in order (20_memory.md R28) -/

namespace Sys2Proof.Machine

/-- The answer to a request is one response, that of its decoded operation. -/
theorem answer_eq (c : Config) (r : Request) : answer c r = [response c (decode r)] := by
  simp [answer, exec_eq_next]

/-- A step where a request waits executes the decoded oldest one, which waits no longer. -/
theorem step_eq_exec {s : State} {r : Request} {rest : List Request} (h : s.requests = r :: rest) :
    step s = exec (decode r) { s with requests := rest, answered := s.answered ++ [r] } := by
  simp [step, nextRequest_cons h]

/-- A step where a request waits gives the answer of the oldest one after the responses already given. -/
theorem step_eq_next {s : State} {r : Request} {rest : List Request} (h : s.requests = r :: rest) :
    step s = .next { s with
      requests := rest, answered := s.answered ++ [r], responses := s.responses ++ answer s.config r } := by
  rw [step_eq_exec h, exec_eq_next, answer_eq]

/-- A run goes on from the state its first step leads to. -/
theorem run_succ_of_step {s t : State} (k : Nat) (h : step s = .next t) :
    Host.Core.run core (k + 1) s = Host.Core.run core k t := by
  have hstep : core.step s = .next t := h
  simp only [Host.Core.run, hstep]

/-- As many steps as requests wait answer all of them, oldest first. -/
theorem run_answers_requests {s : State} {rs : List Request} (h : s.requests = rs) :
    Host.Core.run core rs.length s = .next { s with
      requests := [], answered := s.answered ++ rs, responses := s.responses ++ rs.flatMap (answer s.config) } := by
  induction rs generalizing s with
  | nil =>
    rw [List.length_nil, List.flatMap_nil, List.append_nil, List.append_nil, ← h]
    rfl
  | cons r rest ih =>
    rw [List.length_cons, run_succ_of_step _ (step_eq_next h), ih rfl]
    simp

/-- Settles O12: the run over the requests that wait, taken also at the state with one request more. -/
theorem responsesInRequestOrder : Obligations.ResponsesInRequestOrder := by
  refine ⟨fun s => run_answers_requests rfl, fun s r => ?_, fun c r => by rw [answer_eq, List.length_singleton]⟩
  have hrun := run_answers_requests (issue_requests r s)
  rw [List.length_append, List.length_singleton] at hrun
  rw [hrun]
  simp [issue]

end Sys2Proof.Machine

/-! ## The formats of each operation code, and the ports that do not matter (30_encoding.md R32, R34, R36) -/

namespace Sys2Proof

theorem formats_bcdenc {r : Request} (h : r.op = 0) : portsRead r.op = [.v] ∧ portsAssigned r.op = [.bcd] := by
  rw [h]; exact ⟨rfl, rfl⟩

theorem formats_bcddec {r : Request} (h : r.op = 1) : portsRead r.op = [.b] ∧ portsAssigned r.op = [.bin] := by
  rw [h]; exact ⟨rfl, rfl⟩

theorem formats_e2c {r : Request} (h : r.op = 2) : portsRead r.op = [.t, .mode] ∧
    portsAssigned r.op = [.year, .month, .day, .hour, .minute, .second, .period] := by
  rw [h]; exact ⟨rfl, rfl⟩

theorem formats_c2e {r : Request} (h : r.op = 3) :
    portsRead r.op = [.year, .month, .day, .hour, .minute, .second, .mode, .period] ∧ portsAssigned r.op = [.t] := by
  rw [h]; exact ⟨rfl, rfl⟩

theorem formats_wday {r : Request} (h : r.op = 4) :
    portsRead r.op = [.year, .month, .day] ∧ portsAssigned r.op = [.weekday] := by
  rw [h]; exact ⟨rfl, rfl⟩

theorem formats_leap {r : Request} (h : r.op = 5) : portsRead r.op = [.year] ∧ portsAssigned r.op = [.leap] := by
  rw [h]; exact ⟨rfl, rfl⟩

theorem formats_rsvd6 {r : Request} (h : r.op = 6) : portsRead r.op = [] ∧ portsAssigned r.op = [] := by
  rw [h]; exact ⟨rfl, rfl⟩

theorem formats_rsvd7 {r : Request} (h : r.op = 7) : portsRead r.op = [] ∧ portsAssigned r.op = [] := by
  rw [h]; exact ⟨rfl, rfl⟩

/-- Requests with one operation code that agree on the ports of its format decode to the same operation. -/
theorem decode_eq_of_ports_eq {r₁ r₂ : Request} (hop : r₁.op = r₂.op)
    (hports : ∀ p ∈ portsRead r₁.op, r₁.port p = r₂.port p) : decode r₁ = decode r₂ := by
  obtain h | h | h | h | h | h | h | h := opcode_cases r₂.op <;> rw [h] at hop
  · have hv : r₁.v = r₂.v := by simpa [formats_bcdenc hop, Request.port, BitVec.toNat_inj] using hports
    rw [decode_eq_bcdenc hop, decode_eq_bcdenc h, hv]
  · have hb : r₁.b = r₂.b := by simpa [formats_bcddec hop, Request.port, BitVec.toNat_inj] using hports
    rw [decode_eq_bcddec hop, decode_eq_bcddec h, hb]
  · obtain ⟨ht, hmode⟩ : r₁.t = r₂.t ∧ r₁.mode = r₂.mode := by
      simpa [formats_e2c hop, Request.port, BitVec.toNat_inj] using hports
    rw [decode_eq_e2c hop, decode_eq_e2c h, ht, hmode]
  · obtain ⟨hy, hm, hd, hh, hmi, hs, hmode, hperiod⟩ : r₁.year = r₂.year ∧ r₁.month = r₂.month ∧ r₁.day = r₂.day ∧
        r₁.hour = r₂.hour ∧ r₁.minute = r₂.minute ∧ r₁.second = r₂.second ∧ r₁.mode = r₂.mode ∧
        r₁.period = r₂.period := by
      simpa [formats_c2e hop, Request.port, BitVec.toNat_inj] using hports
    rw [decode_eq_c2e hop, decode_eq_c2e h, hy, hm, hd, hh, hmi, hs, hmode, hperiod]
  · obtain ⟨hy, hm, hd⟩ : r₁.year = r₂.year ∧ r₁.month = r₂.month ∧ r₁.day = r₂.day := by
      simpa [formats_wday hop, Request.port, BitVec.toNat_inj] using hports
    rw [decode_eq_wday hop, decode_eq_wday h, hy, hm, hd]
  · have hy : r₁.year = r₂.year := by simpa [formats_leap hop, Request.port, BitVec.toNat_inj] using hports
    rw [decode_eq_leap hop, decode_eq_leap h, hy]
  · rw [decode_eq_rsvd6 hop, decode_eq_rsvd6 h]
  · rw [decode_eq_rsvd7 hop, decode_eq_rsvd7 h]

/-- Settles O1, code by code from the decoder's equations and the formats. -/
theorem decodeSelectsByOpcode : Obligations.DecodeSelectsByOpcode := by
  intro r
  refine ⟨fun h => ⟨decode_eq_bcdenc h, formats_bcdenc h⟩, fun h => ⟨decode_eq_bcddec h, formats_bcddec h⟩,
    fun h => ⟨fun mode hmode => ?e2c, formats_e2c h⟩, fun h => ⟨fun mode period hmode hperiod => ?c2e, formats_c2e h⟩,
    fun h => ⟨decode_eq_wday h, formats_wday h⟩, fun h => ⟨decode_eq_leap h, formats_leap h⟩,
    fun h => ⟨decode_eq_rsvd6 h, formats_rsvd6 h⟩, fun h => ⟨decode_eq_rsvd7 h, formats_rsvd7 h⟩⟩
  case e2c => rw [decode_eq_e2c h, hmode, Mode.ofBit_toBit]
  case c2e => rw [decode_eq_c2e h, hmode, hperiod, Mode.ofBit_toBit, Period.ofBit_toBit]

namespace Machine

/-- In 24-hour mode the period does not enter the hour, so `C2E` executes alike under both. -/
theorem exec_c2e_h24_eq (y m d h mi sec : Nat) (period period' : Period) (s : State) :
    exec (.c2e y m d h mi sec .h24 period) s = exec (.c2e y m d h mi sec .h24 period') s := rfl

/-- Settles O6: such requests decode alike, and `C2E` in 24-hour mode executes alike under both periods. -/
theorem ignoredPortsDoNotMatter : Obligations.IgnoredPortsDoNotMatter := by
  refine ⟨fun r₁ r₂ s hop hports => ?_, fun r x s hop hmode => ?_⟩
  · rw [decode_eq_of_ports_eq hop hports]
  · have h24 : Mode.ofBit r.mode = .h24 := by rw [hmode]; rfl
    have hop' : ({ r with period := x } : Request).op = 3 := hop
    rw [decode_eq_c2e hop', decode_eq_c2e hop, h24]
    exact exec_c2e_h24_eq ..

/-- Settles O7: the response of both reserved codes is the error response, and `in.op` alone selects them. -/
theorem reservedCodesReportError : Obligations.ReservedCodesReportError :=
  ⟨exec_eq_next .rsvd6, exec_eq_next .rsvd7, fun _ => decode_eq_rsvd6, fun _ => decode_eq_rsvd7⟩

end Machine

end Sys2Proof

/-! ## The calendar: sums of month and year lengths, and the day number (40_calendar_primitives.md R45, R48 to R50) -/

namespace Sys2Proof.Machine

/-- A running total of `g 1`, `g 2`, … is the sum over the first `n` of them. -/
theorem eq_sum_of_succ {f g : Nat → Nat} (h0 : f 0 = 0) (hsucc : ∀ n, f (n + 1) = f n + g (n + 1)) (n : Nat) :
    f n = ((List.range n).map fun i => g (i + 1)).sum := by
  induction n with
  | zero => simpa using h0
  | succ n ih => rw [hsucc, ih, List.sum_range_succ]

theorem daysInMonths_eq_sum (y n : Nat) : daysInMonths y n = ((List.range n).map fun i => daysInMonth y (i + 1)).sum :=
  eq_sum_of_succ (g := daysInMonth y) rfl (fun _ => rfl) n

/-- The closed form of the days before a year is the sum of the earlier years' lengths (R49). -/
theorem daysBeforeYear_eq_sum (y : Nat) :
    daysBeforeYear y = ((List.range (y - 1)).map fun i => daysInYear (i + 1)).sum :=
  eq_sum_of_succ (f := fun n => daysBeforeYear (n + 1)) rfl (fun n => daysBeforeYear_succ n.succ_pos) (y - 1)

/-- The twelve months make up the year. -/
theorem daysInMonths_twelve (y : Nat) : daysInMonths y 12 = daysInYear y := by
  cases hl : isLeap y <;> simp [daysInMonths, daysInMonth, daysInYear, hl]

theorem daysInMonths_monotone (y : Nat) : Monotone (daysInMonths y) :=
  monotone_nat_of_le_succ fun _ => Nat.le_add_right _ _

theorem daysBeforeMonth_monotone (y : Nat) : Monotone (daysBeforeMonth y) :=
  (daysInMonths_monotone y).comp fun _ _ h => Nat.sub_le_sub_right h 1

theorem daysBeforeYear_mono {y y' : Nat} (hy : 1 ≤ y) (h : y ≤ y') : daysBeforeYear y ≤ daysBeforeYear y' := by
  induction y', h using Nat.le_induction with
  | base => rfl
  | succ n hn ih => rw [daysBeforeYear_succ (hy.trans hn)]; omega

/-- The Gregorian rule's period holds of every month, so of the days before a month. -/
theorem daysInMonth_add_400 (y m : Nat) : daysInMonth (y + 400) m = daysInMonth y m := by
  simp only [daysInMonth, isLeap_add_400]

theorem daysBeforeMonth_add_400 (y m : Nat) : daysBeforeMonth (y + 400) m = daysBeforeMonth y m := by
  simp only [daysBeforeMonth, daysInMonths_eq_sum, daysInMonth_add_400]

/-- A valid date comes before the end of its month. -/
theorem dayNumber_lt_month_end {y m d : Nat} (hv : dateValid y m d = true) :
    dayNumber y m d < daysBeforeYear y + daysBeforeMonth y (m + 1) := by
  obtain ⟨⟨hm, -⟩, hd, hd'⟩ := dateValid_iff.mp hv
  rw [daysBeforeMonth_succ y hm, dayNumber]
  omega

/-- The end of December is the end of the year. -/
theorem daysBeforeYear_add_daysBeforeMonth_thirteen {y : Nat} (hy : 1 ≤ y) :
    daysBeforeYear y + daysBeforeMonth y 13 = daysBeforeYear (y + 1) := by
  rw [daysBeforeYear_succ hy, ← daysInMonths_twelve, daysBeforeMonth]

/-- A valid date comes before the end of its year. -/
theorem dayNumber_lt_year_end {y m d : Nat} (hy : 1 ≤ y) (hv : dateValid y m d = true) :
    dayNumber y m d < daysBeforeYear (y + 1) := by
  obtain ⟨⟨-, hm⟩, -⟩ := dateValid_iff.mp hv
  have hmonth := dayNumber_lt_month_end hv
  have hle : daysBeforeMonth y (m + 1) ≤ daysBeforeMonth y 13 := daysBeforeMonth_monotone y (by omega)
  have hyear := daysBeforeYear_add_daysBeforeMonth_thirteen hy
  omega

/-- An earlier valid date has the smaller day number: by its year, else its month, else its day. -/
theorem dayNumber_lt_of_date_lt {y m d y' m' d' : Nat} (hy : 1 ≤ y) (hv : dateValid y m d = true)
    (hd' : 1 ≤ d') (hlt : [y, m, d] < [y', m', d']) : dayNumber y m d < dayNumber y' m' d' := by
  obtain hyear | ⟨rfl, hmonth | ⟨rfl, hday⟩⟩ : y < y' ∨ y = y' ∧ (m < m' ∨ m = m' ∧ d < d') := by
    simpa [List.cons_lt_cons_iff] using hlt
  · calc dayNumber y m d < daysBeforeYear (y + 1) := dayNumber_lt_year_end hy hv
      _ ≤ daysBeforeYear y' := daysBeforeYear_mono (by omega) hyear
      _ ≤ dayNumber y' m' d' := by rw [dayNumber]; omega
  · calc dayNumber y m d < daysBeforeYear y + daysBeforeMonth y (m + 1) := dayNumber_lt_month_end hv
      _ ≤ daysBeforeYear y + daysBeforeMonth y m' := Nat.add_le_add_left (daysBeforeMonth_monotone y hmonth) _
      _ ≤ dayNumber y m' d' := by rw [dayNumber]; omega
  · obtain ⟨-, hd, -⟩ := dateValid_iff.mp hv
    simp only [dayNumber]
    omega

/-- Three kinds of successor: within the month, to the first of the next month, to the next 1 January. -/
theorem nextDate_cases {y m d : Nat} (hv : dateValid y m d = true) :
    (d < daysInMonth y m ∧ nextDate y m d = (y, m, d + 1)) ∨
    (d = daysInMonth y m ∧ m < 12 ∧ nextDate y m d = (y, m + 1, 1)) ∨
    (d = daysInMonth y m ∧ m = 12 ∧ nextDate y m d = (y + 1, 1, 1)) := by
  obtain ⟨⟨-, hm⟩, -, hd⟩ := dateValid_iff.mp hv
  unfold nextDate
  split
  · next h => exact .inl ⟨h, rfl⟩
  · split
    · next h => exact .inr (.inl ⟨by omega, h, rfl⟩)
    · exact .inr (.inr ⟨by omega, by omega, rfl⟩)

/-- From a valid date to the next the day number steps by one. -/
theorem dayNumber_nextDate {y m d : Nat} (hy : 1 ≤ y) (hv : dateValid y m d = true) :
    dayNumber (nextDate y m d).1 (nextDate y m d).2.1 (nextDate y m d).2.2 = dayNumber y m d + 1 := by
  obtain ⟨⟨hm, -⟩, hd, -⟩ := dateValid_iff.mp hv
  have hmonth := daysBeforeMonth_succ y hm
  obtain ⟨-, hn⟩ | ⟨hlast, -, hn⟩ | ⟨hlast, rfl, hn⟩ := nextDate_cases hv <;> simp only [hn, dayNumber]
  · omega
  · omega
  · have hyear : daysBeforeYear y + daysBeforeMonth y (12 + 1) = daysBeforeYear (y + 1) :=
      daysBeforeYear_add_daysBeforeMonth_thirteen hy
    rw [daysBeforeMonth_one]
    omega

theorem dayNumber_add_400 {y : Nat} (hy : 1 ≤ y) (m d : Nat) :
    dayNumber (y + 400) m d = dayNumber y m d + 146097 := by
  simp only [dayNumber, daysBeforeYear_add_400 hy, daysBeforeMonth_add_400]
  omega

/-- No valid date of a 16-bit year comes after 65535-12-31. -/
theorem dayNumber_le_last {y m d : Nat} (hy : 1 ≤ y) (hy' : y ≤ 65535) (hv : dateValid y m d = true) :
    dayNumber y m d ≤ 23936165 := by
  have hlt := dayNumber_lt_year_end hy hv
  have hle : daysBeforeYear (y + 1) ≤ daysBeforeYear 65536 := daysBeforeYear_mono (by omega) (by omega)
  have hend : daysBeforeYear 65536 = 23936166 := by decide
  omega

/-- Settles O20: the days before a month are a sum by definition, evaluated for both kinds of year. -/
theorem daysBeforeMonthTable : Obligations.DaysBeforeMonthTable := by
  refine ⟨fun y m _ _ => daysInMonths_eq_sum y (m - 1), fun y => ?_⟩
  cases hl : isLeap y <;> simp [List.range_succ, daysBeforeMonth, daysInMonths, daysInMonth, hl]

/-- Settles O21, by induction on the earlier years. -/
theorem daysBeforeYearSum : Obligations.DaysBeforeYearSum :=
  ⟨fun y _ => ⟨daysBeforeYear_eq_sum y, rfl⟩, by decide⟩

/-- Settles O22, clause by clause. -/
theorem dayNumberCountsDays : Obligations.DayNumberCountsDays := by
  refine ⟨fun _ _ _ _ _ => rfl, fun y m d y' m' d' hy hv _ hv' hlt => ?_, fun _ _ _ => dayNumber_nextDate,
    fun _ m d hy _ => dayNumber_add_400 hy m d, fun _ _ _ => dayNumber_le_last, by decide⟩
  obtain ⟨-, hd', -⟩ := dateValid_iff.mp hv'
  exact dayNumber_lt_of_date_lt hy hv hd' hlt

/-- Settles O19: the rule R44 decides the length, and the months make it up. -/
theorem yearIsSumOfMonths : Obligations.YearIsSumOfMonths := by
  refine fun y => ⟨?_, ?_⟩
  · simp only [daysInYear, isLeap_iff]
  · rw [← daysInMonths_twelve, daysInMonths_eq_sum]

end Sys2Proof.Machine

/-! ## LEAP and WDAY (40_calendar_primitives.md R52, R53) -/

namespace Sys2Proof.Machine

theorem wdayOutside_iff {y m d : Nat} :
    wdayOutside y m d = true ↔ y = 0 ∨ ¬(1 ≤ m ∧ m ≤ 12) ∨ ¬(1 ≤ d ∧ d ≤ daysInMonth y m) := by
  rw [wdayOutside, Bool.or_eq_true, decide_eq_true_iff, Bool.not_eq_true', ← Bool.not_eq_true, dateValid_iff,
    not_and_or]

theorem weekdayIndex_bounds (mondayIndex k : Nat) :
    1 ≤ weekdayIndex mondayIndex k ∧ weekdayIndex mondayIndex k ≤ 7 := by
  unfold weekdayIndex
  omega

/-- The weekday index fits its port. -/
theorem wdayResponse_weekday (mondayIndex y m d : Nat) :
    (wdayResponse mondayIndex y m d).weekday.toNat = weekdayIndex mondayIndex (weekdayOffset y m d) := by
  obtain ⟨-, hle⟩ := weekdayIndex_bounds mondayIndex (weekdayOffset y m d)
  exact (BitVec.toNat_ofNat ..).trans (Nat.mod_eq_of_lt (by omega))

theorem leapResponse_leap_iff {y : Nat} : (leapResponse y).leap = 1 ↔ isLeap y = true := by
  cases hl : isLeap y <;> simp [leapResponse, hl]

/-- Settles O23: the response of `LEAP` assigns the one port, by the rule R44. -/
theorem leapChecksGregorianRule : Obligations.LeapChecksGregorianRule :=
  ⟨fun _ => decode_eq_leap, fun year s =>
    ⟨leapResponse year, exec_eq_next (.leap year) s, rfl, leapResponse_leap_iff.trans isLeap_iff⟩⟩

/-- Settles O24, by the two responses of `WDAY`. -/
theorem wdayGivesWeekday : Obligations.WdayGivesWeekday := by
  refine ⟨fun _ => decode_eq_wday, fun year month day s => ⟨fun hbad => ?outside, fun hy hm hm' hd hd' => ?inside⟩⟩
  case outside =>
    rw [exec_eq_next, response, if_pos (wdayOutside_iff.mpr hbad)]
    rfl
  case inside =>
    have hin : ¬wdayOutside year month day = true := by rw [wdayOutside_iff]; omega
    refine ⟨wdayResponse s.config.mondayIndex year month day, ?_, rfl, ?_⟩
    · rw [exec_eq_next, response, if_neg hin]
    · rw [wdayResponse_weekday]
      exact ⟨rfl, weekdayIndex_bounds ..⟩

end Sys2Proof.Machine

/-! ## The hour forms and C2E (41_epoch_conversion.md R55 to R57, R61) -/

namespace Sys2Proof.Machine

theorem to12h_of_am {h : Nat} (hh : h < 12) : to12h h = (if h = 0 then 12 else h, .am) := by
  have ham : ¬h > 11 := by omega
  simp [to12h, ham, Period.toNat]

theorem to12h_of_pm {h : Nat} (hh : 12 ≤ h) : to12h h = (if h = 12 then 12 else h - 12, .pm) := by
  have hpm : h > 11 := by omega
  have hnoon : h - 12 = 0 ↔ h = 12 := by omega
  simp only [to12h, if_pos hpm, Period.toNat, hnoon]

theorem to24h_to12h {h : Nat} (hh : h < 24) : to24h (to12h h).1 (to12h h).2 = h := by
  obtain ham | hpm := Nat.lt_or_ge h 12
  · rw [to12h_of_am ham]
    simp only [to24h, Period.toNat]
    split <;> omega
  · rw [to12h_of_pm hpm]
    simp only [to24h, Period.toNat]
    split <;> omega

theorem to24h_lt (h : Nat) (p : Period) : to24h h p < 24 := by
  cases p <;> simp only [to24h, Period.toNat] <;> omega

/-- Morning hours stay below noon and afternoon hours do not; 12 stands for the first hour of its half. -/
theorem to12h_to24h {h : Nat} (h₁ : 1 ≤ h) (h₂ : h ≤ 12) (p : Period) : to12h (to24h h p) = (h, p) := by
  have hfirst : (if h % 12 = 0 then 12 else h % 12) = h := by split <;> omega
  cases p with
  | am =>
    have hval : to24h h .am = h % 12 := rfl
    rw [to12h_of_am (by omega), hval, hfirst]
  | pm =>
    have hval : to24h h .pm = h % 12 + 12 := rfl
    have hnoon : h % 12 + 12 = 12 ↔ h % 12 = 0 := by omega
    rw [to12h_of_pm (by omega), hval, Nat.add_sub_cancel, if_congr hnoon rfl rfl, hfirst]

/-- Settles O29: the table is evaluated, and the two mappings undo each other half by half of the day. -/
theorem hourFormsAreInverse : Obligations.HourFormsAreInverse :=
  ⟨by decide, fun _ => to24h_to12h, fun h p h₁ h₂ => ⟨rfl, to24h_lt h p, to12h_to24h h₁ h₂ p⟩⟩

theorem hourOf_eq_ite (h : Nat) (period : Period) (mode : Mode) :
    hourOf h period mode = if mode = .h12 then h % 12 + 12 * period.toNat else h := by
  cases mode <;> rfl

/-- The domain of `C2E` before the timestamp is compared (R61): a valid date from 1970 on and a valid time. -/
theorem c2eOutside_eq_false_iff {y m d h mi s : Nat} {mode : Mode} :
    c2eOutside y m d h mi s mode = false ↔
      1970 ≤ y ∧ (1 ≤ m ∧ m ≤ 12) ∧ (1 ≤ d ∧ d ≤ daysInMonth y m) ∧
        s < 60 ∧ mi < 60 ∧ (mode = .h24 → h ≤ 23) ∧ (mode = .h12 → 1 ≤ h ∧ h ≤ 12) := by
  simp only [c2eOutside, Bool.or_eq_false_iff, Bool.not_eq_false', decide_eq_false_iff_not, Nat.not_lt,
    dateValid_iff, timeValid_iff, and_assoc]

theorem c2eTooLate_eq_false_iff {t : Nat} : c2eTooLate t = false ↔ t ≤ 4294967295 := by
  rw [c2eTooLate, decide_eq_false_iff_not, Nat.not_lt]

/-- A timestamp up to `T_MAX` fits its port. -/
theorem c2eResponse_t {t : Nat} (ht : t ≤ 4294967295) : (c2eResponse t).t.toNat = t :=
  (BitVec.toNat_ofNat ..).trans (Nat.mod_eq_of_lt (by omega))

theorem response_c2e_of_inside {y m d h mi s : Nat} {mode : Mode} {period : Period} (c : Config)
    (hin : c2eOutside y m d h mi s mode = false)
    (ht : timestampOf y m d (hourOf h period mode) mi s ≤ 4294967295) :
    response c (.c2e y m d h mi s mode period) = c2eResponse (timestampOf y m d (hourOf h period mode) mi s) := by
  rw [response, hin, c2eTooLate_eq_false_iff.mpr ht]
  rfl

theorem response_c2e_of_outside_or_late {y m d h mi s : Nat} {mode : Mode} {period : Period} (c : Config)
    (hbad : ¬c2eOutside y m d h mi s mode = false ∨
      timestampOf y m d (hourOf h period mode) mi s > 4294967295) :
    response c (.c2e y m d h mi s mode period) = errorResponse := by
  obtain ⟨-, hp⟩ | ⟨hin, hnotLate, -⟩ := response_c2e_cases c y m d h mi s mode period
  · exact hp
  · have hle := c2eTooLate_eq_false_iff.mp hnotLate
    exact absurd hbad (not_or_intro (not_not_intro hin) (Nat.not_lt.mpr hle))

/-- Settles O33, by the two responses of `C2E`. -/
theorem c2eGivesTimestamp : Obligations.C2eGivesTimestamp := by
  refine ⟨fun r mode period hop hmode hperiod => ?decode, fun f s => ?exec⟩
  case decode => rw [decode_eq_c2e hop, hmode, hperiod, Mode.ofBit_toBit, Period.ofBit_toBit]
  case exec =>
    rw [exec_eq_next, ← hourOf_eq_ite, ← c2eOutside_eq_false_iff]
    refine ⟨fun ⟨hin, ht⟩ => ⟨_, rfl, ?inside⟩, fun hbad => ?outside⟩
    case inside =>
      rw [response_c2e_of_inside _ hin ht]
      exact ⟨rfl, c2eResponse_t ht⟩
    case outside =>
      rw [response_c2e_of_outside_or_late _ hbad]
      rfl

end Sys2Proof.Machine

/-! ## BCDENC and BCDDEC (42_bcd_codec.md R63 to R65) -/

namespace Sys2Proof.Machine

theorem errBit_eq_one_iff {outside : Bool} : errBit outside = 1 ↔ outside = true := by
  cases outside <;> decide

theorem errBit_eq_zero_iff {outside : Bool} : errBit outside = 0 ↔ outside = false := by
  cases outside <;> decide

theorem gives_bcdenc_iff {v : Nat} {s : State} {p : Response} : Gives (.bcdenc v) s p ↔ p = bcdencResponse v :=
  gives_iff

theorem gives_bcddec_iff {b : Nat} {s : State} {p : Response} : Gives (.bcddec b) s p ↔ p = bcddecResponse b :=
  gives_iff

theorem bcdencResponse_err_eq_one_iff {v : Nat} : (bcdencResponse v).err = 1 ↔ v > 99 :=
  errBit_eq_one_iff.trans decide_eq_true_iff

theorem bcdencResponse_err_eq_zero_iff {v : Nat} : (bcdencResponse v).err = 0 ↔ v ≤ 99 :=
  errBit_eq_zero_iff.trans (decide_eq_false_iff_not.trans Nat.not_lt)

theorem bcddecOutside_eq_false_iff {b : Nat} : bcddecOutside b = false ↔ b / 16 ≤ 9 ∧ b % 16 ≤ 9 := by
  rw [bcddecOutside, Bool.not_eq_false', validBcd_iff]

theorem bcddecResponse_err_eq_zero_iff {b : Nat} : (bcddecResponse b).err = 0 ↔ b / 16 ≤ 9 ∧ b % 16 ≤ 9 :=
  errBit_eq_zero_iff.trans bcddecOutside_eq_false_iff

theorem bcddecResponse_err_eq_one_iff {b : Nat} : (bcddecResponse b).err = 1 ↔ b / 16 > 9 ∨ b % 16 > 9 := by
  have hbad : (bcddecResponse b).err = 1 ↔ ¬bcddecOutside b = false :=
    errBit_eq_one_iff.trans (Bool.not_eq_false _).to_iff.symm
  rw [hbad, bcddecOutside_eq_false_iff]
  omega

/-- A units digit is below 16, so the tens digit is the high nibble and the units digit the low one. -/
theorem bcdencResponse_nibbles {v : Nat} (hv : v < 128) :
    (bcdencResponse v).bcd.toNat / 16 = v / 10 ∧ (bcdencResponse v).bcd.toNat % 16 = v % 10 := by
  rw [bcdencResponse_bcd hv]
  omega

theorem bcddecResponse_bin_eq_digits {b : Nat} (hb : b < 256) :
    (bcddecResponse b).bin.toNat = 10 * (b / 16) + b % 16 := by
  rw [bcddecResponse_bin hb]
  omega

/-- Decoding the two nibbles puts tens and units together again, for every operand of the encoder. -/
theorem bcddec_bcdenc_bin {v : Nat} (hv : v < 128) :
    (bcddecResponse (bcdencResponse v).bcd.toNat).bin.toNat = v := by
  obtain ⟨htens, hunits⟩ := bcdencResponse_nibbles hv
  rw [bcddecResponse_bin_eq_digits (bcdencResponse v).bcd.isLt, htens, hunits]
  exact Nat.div_add_mod v 10

/-- The encoder's low nibble is a digit and its high nibble is one up to 99, so both operations report alike. -/
theorem bcddec_bcdenc_err {v : Nat} (hv : v < 128) :
    (bcddecResponse (bcdencResponse v).bcd.toNat).err = (bcdencResponse v).err := by
  obtain ⟨htens, hunits⟩ := bcdencResponse_nibbles hv
  have hsame : bcddecOutside (bcdencResponse v).bcd.toNat = false ↔ bcdencOutside v = false := by
    rw [bcddecOutside_eq_false_iff, htens, hunits, bcdencOutside, decide_eq_false_iff_not]
    omega
  exact congrArg errBit (Bool.not_inj (Bool.coe_false_iff_false.mp hsame))

theorem bcddecResponse_bin_le_99 {c : Nat} (hhi : c / 16 ≤ 9) (hlo : c % 16 ≤ 9) :
    (bcddecResponse c).bin.toNat ≤ 99 := by
  rw [bcddecResponse_bin_eq_digits (by omega)]
  omega

/-- The nibbles of a valid BCD byte are the digits of the number it decodes to. -/
theorem bcdenc_bcddec_bcd {c : Nat} (hhi : c / 16 ≤ 9) (hlo : c % 16 ≤ 9) :
    (bcdencResponse (bcddecResponse c).bin.toNat).bcd.toNat = c := by
  have hle := bcddecResponse_bin_le_99 hhi hlo
  rw [bcdencResponse_bcd (by omega), bcddecResponse_bin_eq_digits (by omega)]
  omega

/-- The bytes the encoder gives without error are the valid BCD bytes (R65 (c)); each is the code of the number it
decodes to. -/
theorem exists_bcdenc_without_error_iff {c : Nat} {s : State} :
    (∃ (v : Nat) (p : Response), v < 128 ∧ Gives (.bcdenc v) s p ∧ p.err = 0 ∧ p.bcd.toNat = c) ↔
      c / 16 ≤ 9 ∧ c % 16 ≤ 9 := by
  constructor
  · rintro ⟨v, p, hv, hp, herr, rfl⟩
    obtain rfl := gives_bcdenc_iff.mp hp
    rwa [← bcddecResponse_err_eq_zero_iff, bcddec_bcdenc_err hv]
  · rintro ⟨hhi, hlo⟩
    have hle := bcddecResponse_bin_le_99 hhi hlo
    exact ⟨(bcddecResponse c).bin.toNat, _, by omega, gives_bcdenc_iff.mpr rfl,
      bcdencResponse_err_eq_zero_iff.mpr hle, bcdenc_bcddec_bcd hhi hlo⟩

/-- Settles O38, by the response of `BCDENC`. -/
theorem bcdencPacksDigits : Obligations.BcdencPacksDigits := by
  refine ⟨fun _ => decode_eq_bcdenc, fun v s hv => ⟨bcdencResponse v, exec_eq_next (.bcdenc v) s, rfl, ?_⟩⟩
  obtain ⟨htens, hunits⟩ := bcdencResponse_nibbles hv
  exact ⟨bcdencResponse_bcd hv, htens, hunits, bcdencResponse_err_eq_one_iff⟩

/-- Settles O39, by the response of `BCDDEC`. -/
theorem bcddecUnpacksDigits : Obligations.BcddecUnpacksDigits := by
  refine ⟨fun _ => decode_eq_bcddec, fun b s hb => ⟨bcddecResponse b, exec_eq_next (.bcddec b) s, rfl, ?_⟩⟩
  have hbin := bcddecResponse_bin_eq_digits hb
  exact ⟨bcddecResponse_bin hb, hbin, by omega, bcddecResponse_err_eq_one_iff⟩

/-- Settles O40, from the two round trips and the encoder's image. -/
theorem bcdCodecRoundTrip : Obligations.BcdCodecRoundTrip := by
  refine ⟨fun v s hv => ?decodeEncode, fun c s _ hhi hlo => ?encodeDecode,
    fun _ _ _ => exists_bcdenc_without_error_iff, fun c s q _ hq => ?accepted⟩
  case decodeEncode =>
    exact ⟨_, _, gives_bcdenc_iff.mpr rfl, gives_bcddec_iff.mpr rfl, bcddec_bcdenc_bin hv, bcddec_bcdenc_err hv,
      bcdencResponse_err_eq_zero_iff⟩
  case encodeDecode =>
    have hle := bcddecResponse_bin_le_99 hhi hlo
    exact ⟨_, _, gives_bcddec_iff.mpr rfl, gives_bcdenc_iff.mpr rfl, bcdenc_bcddec_bcd hhi hlo,
      bcddecResponse_err_eq_zero_iff.mpr ⟨hhi, hlo⟩, bcdencResponse_err_eq_zero_iff.mpr hle, hle⟩
  case accepted =>
    obtain rfl := gives_bcddec_iff.mp hq
    rw [bcddecResponse_err_eq_zero_iff, exists_bcdenc_without_error_iff]

end Sys2Proof.Machine

/-! ## Every step answers (60_exceptions.md R68) -/

namespace Sys2Proof.Machine

theorem step_of_no_request {s : State} (h : s.requests = []) : step s = .next s := by
  simp [step, h]

/-- Settles O42: execution always answers, and a step either executes the oldest request or is idle. -/
theorem noFaultAndNoRefusal : Obligations.NoFaultAndNoRefusal := by
  refine ⟨fun i s => ⟨response s.config i, exec_eq_next i s⟩, fun s => ?step⟩
  cases h : s.requests with
  | nil => exact ⟨s, step_of_no_request h⟩
  | cons r rest => exact ⟨_, step_eq_next h⟩

end Sys2Proof.Machine

/-! ## The order of instants and the end of time (41_epoch_conversion.md R61, R62 (c)) -/

namespace Sys2Proof.Machine

/-- From 1970 on no day number is below the epoch's, so the days since the epoch are a true difference. -/
theorem epochDaynum_le_dayNumber {y : Nat} (hy : 1970 ≤ y) (m d : Nat) : 719162 ≤ dayNumber y m d := by
  have hle : daysBeforeYear 1970 ≤ daysBeforeYear y := daysBeforeYear_mono (by omega) hy
  have hepoch : daysBeforeYear 1970 = 719162 := by decide
  rw [dayNumber]
  omega

theorem timestampOf_eq (y m d h mi s : Nat) :
    timestampOf y m d h mi s = (dayNumber y m d - 719162) * 86400 + h * 3600 + mi * 60 + s := rfl

/-- One instant is earlier than another by its date or, on one date, by its time of day. -/
theorem instant_lt_iff {y m d h mi s y' m' d' h' mi' s' : Nat} :
    [y, m, d, h, mi, s] < [y', m', d', h', mi', s'] ↔
      [y, m, d] < [y', m', d'] ∨ (y = y' ∧ m = m' ∧ d = d') ∧ [h, mi, s] < [h', mi', s'] := by
  simp only [List.cons_lt_cons_iff, List.not_lt_nil, and_false, or_false]
  omega

/-- Of two instants from 1970 on the earlier has the smaller timestamp: an earlier date is at least a whole day earlier,
and a time of day is less than a day. -/
theorem timestampOf_lt_of_instant_lt {y m d h mi s y' m' d' h' mi' s' : Nat} (hy : 1970 ≤ y)
    (hv : dateValid y m d = true) (hh : h < 24) (hmi : mi < 60) (hs : s < 60) (hd' : 1 ≤ d') (hmi' : mi' < 60)
    (hlt : [y, m, d, h, mi, s] < [y', m', d', h', mi', s']) :
    timestampOf y m d h mi s < timestampOf y' m' d' h' mi' s' := by
  have hepoch := epochDaynum_le_dayNumber hy m d
  rw [timestampOf_eq, timestampOf_eq]
  obtain hdate | ⟨⟨rfl, rfl, rfl⟩, htime⟩ := instant_lt_iff.mp hlt
  · have hday := dayNumber_lt_of_date_lt (by omega) hv hd' hdate
    omega
  · simp only [List.cons_lt_cons_iff, List.not_lt_nil, and_false, or_false] at htime
    omega

theorem timestampOf_endOfTime : timestampOf 2106 2 7 6 28 15 = 4294967295 := by decide

theorem hourOf_lt {h : Nat} {mode : Mode} (period : Period) (hh : mode = .h24 → h ≤ 23) :
    hourOf h period mode < 24 := by
  cases mode with
  | h24 => exact Nat.lt_succ_of_le (hh rfl)
  | h12 => exact to24h_lt h period

/-- Fields in the domain of `C2E` have a timestamp past `T_MAX` when they denote an instant later than
2106-02-07 06:28:15. -/
theorem c2eTooLate_iff_endOfTime_lt {y m d h mi s : Nat} {mode : Mode} (period : Period)
    (hin : c2eOutside y m d h mi s mode = false) :
    c2eTooLate (timestampOf y m d (hourOf h period mode) mi s) = true ↔
      [2106, 2, 7, 6, 28, 15] < [y, m, d, hourOf h period mode, mi, s] := by
  obtain ⟨hy, hm, hd, hs, hmi, h24, -⟩ := c2eOutside_eq_false_iff.mp hin
  have hv := dateValid_iff.mpr ⟨hm, hd⟩
  have hh := hourOf_lt period h24
  rw [← Bool.not_eq_false, c2eTooLate_eq_false_iff, ← timestampOf_endOfTime, Nat.not_le]
  refine ⟨fun hlate => ?_, fun hlt => ?_⟩
  · obtain hlt | heq | hgt := lt_trichotomy [2106, 2, 7, 6, 28, 15] [y, m, d, hourOf h period mode, mi, s]
    · exact hlt
    · simp only [List.cons.injEq, and_true] at heq
      obtain ⟨rfl, rfl, rfl, hhour, rfl, rfl⟩ := heq
      exact absurd (hhour ▸ hlate) (Nat.lt_irrefl _)
    · have hearly := timestampOf_lt_of_instant_lt hy hv hh hmi hs (by decide) (by decide) hgt
      exact absurd hlate hearly.asymm
  · exact timestampOf_lt_of_instant_lt (by decide) (by decide) (by decide) (by decide) (by decide) hd.1 hmi hlt

end Sys2Proof.Machine

/-! ## The causes of `out.err` (60_exceptions.md R69) -/

namespace Sys2Proof

theorem Mode.ofBit_eq_h24_iff {x : BitVec 1} : Mode.ofBit x = .h24 ↔ x = 0 := by
  revert x; decide

theorem Mode.ofBit_eq_h12_iff {x : BitVec 1} : Mode.ofBit x = .h12 ↔ x = 1 := by
  revert x; decide

end Sys2Proof

namespace Sys2Proof.Machine

theorem response_wday_err_eq_one_iff {c : Config} {y m d : Nat} :
    (response c (.wday y m d)).err = 1 ↔ wdayOutside y m d = true := by
  obtain ⟨hout, hp⟩ | ⟨hin, hp⟩ := response_wday_cases c y m d
  · simp [hp, hout, errorResponse, errBit]
  · simp [hp, hin, wdayResponse, errBit]

theorem response_c2e_err_eq_one_iff {c : Config} {y m d h mi s : Nat} {mode : Mode} {period : Period} :
    (response c (.c2e y m d h mi s mode period)).err = 1 ↔
      c2eOutside y m d h mi s mode = true ∨ c2eTooLate (timestampOf y m d (hourOf h period mode) mi s) = true := by
  obtain ⟨hbad, hp⟩ | ⟨hin, hnotLate, hp⟩ := response_c2e_cases c y m d h mi s mode period
  · simp [hp, hbad, errorResponse, errBit]
  · simp [hp, hin, hnotLate, c2eResponse, errBit]

/-- What puts fields outside the domain of `C2E` (R61), cause by cause. -/
theorem c2eOutside_iff {y m d h mi s : Nat} {mode : Mode} :
    c2eOutside y m d h mi s mode = true ↔
      y < 1970 ∨ ¬(1 ≤ m ∧ m ≤ 12) ∨ ¬(1 ≤ d ∧ d ≤ daysInMonth y m) ∨ mi ≥ 60 ∨ s ≥ 60 ∨
        (mode = .h24 ∧ h > 23) ∨ (mode = .h12 ∧ (h = 0 ∨ h > 12)) := by
  rw [← Bool.not_eq_false, c2eOutside_eq_false_iff]
  simp only [not_and_or, Classical.not_imp, Nat.not_le, Nat.not_lt, Nat.lt_one_iff, ge_iff_le, gt_iff_lt]
  rw [or_left_comm (a := 60 ≤ s)]

/-- `C2E` reports fields outside its domain and, of those inside, the instants after the end of time. -/
theorem response_c2e_err_eq_one_iff_endOfTime {c : Config} {y m d h mi s : Nat} {mode : Mode} {period : Period} :
    (response c (.c2e y m d h mi s mode period)).err = 1 ↔
      c2eOutside y m d h mi s mode = true ∨
        [2106, 2, 7, 6, 28, 15] < [y, m, d, hourOf h period mode, mi, s] := by
  rw [response_c2e_err_eq_one_iff]
  exact or_congr_right' fun hin => c2eTooLate_iff_endOfTime_lt period (eq_false_of_ne_true hin)

/-- With an error `BCDENC` still gives its formula's value. -/
theorem bcdencResponse_of_err {v : Nat} (herr : (bcdencResponse v).err = 1) :
    bcdencResponse v = { Response.zero with err := 1, bcd := BitVec.ofNat 8 (v + 6 * (v / 10)) } := by
  rw [← herr]; rfl

/-- With an error `BCDDEC` still gives its formula's value. -/
theorem bcddecResponse_of_err {b : Nat} (herr : (bcddecResponse b).err = 1) :
    bcddecResponse b = { Response.zero with err := 1, bin := BitVec.ofNat 8 (b - 6 * (b / 16)) } := by
  rw [← herr, ← highNibble_eq_div]; rfl

/-- A request that is neither of the BCD operations and reports an error gets the error response. -/
theorem response_decode_eq_errorResponse {c : Config} {r : Request} (h0 : r.op ≠ 0) (h1 : r.op ≠ 1)
    (herr : (response c (decode r)).err = 1) : response c (decode r) = errorResponse := by
  have hop := encodeOn_decode_op r r
  have henc (v : Nat) : decode r ≠ .bcdenc v := fun hd => h0 (by rw [← hop, hd]; rfl)
  have hdec (b : Nat) : decode r ≠ .bcddec b := fun hd => h1 (by rw [← hop, hd]; rfl)
  exact response_eq_errorResponse henc hdec herr

/-- Settles O43, operation code by operation code from the response of the decoded operation. -/
theorem errorCausesComplete : Obligations.ErrorCausesComplete := by
  intro r s p hp
  obtain rfl := gives_iff.mp hp
  refine ⟨fun h => ?bcdenc, fun h => ?bcddec, fun h => ?e2c, fun h => ?c2e, fun h => ?wday, fun h => ?leap,
    fun h => ?reserved, fun herr => ?ports⟩
  case bcdenc =>
    rw [decode_eq_bcdenc h]
    exact bcdencResponse_err_eq_one_iff
  case bcddec =>
    rw [decode_eq_bcddec h]
    exact bcddecResponse_err_eq_one_iff
  case e2c =>
    rw [decode_eq_e2c h]
    rfl
  case c2e =>
    simp only [decode_eq_c2e h, response_c2e_err_eq_one_iff_endOfTime, c2eOutside_iff, Mode.ofBit_eq_h24_iff,
      Mode.ofBit_eq_h12_iff, or_assoc]
  case wday =>
    rw [decode_eq_wday h, response_wday_err_eq_one_iff, wdayOutside_iff]
  case leap =>
    rw [decode_eq_leap h]
    rfl
  case reserved =>
    obtain h | h := h
    · rw [decode_eq_rsvd6 h]; rfl
    · rw [decode_eq_rsvd7 h]; rfl
  case ports =>
    by_cases h0 : r.op = 0
    · rw [decode_eq_bcdenc h0] at herr ⊢
      rw [h0]
      exact bcdencResponse_of_err herr
    · by_cases h1 : r.op = 1
      · rw [decode_eq_bcddec h1] at herr ⊢
        rw [h1]
        exact bcddecResponse_of_err herr
      · rw [response_decode_eq_errorResponse h0 h1 herr, if_neg h0, if_neg h1]
        rfl

end Sys2Proof.Machine

/-! ## After a reset (70_reset_and_hazards.md R76, R77) -/

namespace Sys2Proof.Machine

/-- Resetting the reset state changes nothing, so what holds after every reset holds of the reset state. -/
theorem hostReset_reset : hostReset State.reset = State.reset := rfl

theorem inProgress_hostReset (s : State) : inProgress (hostReset s) = [] := rfl

theorem takeResponse_of_no_response {s : State} (h : s.responses = []) : takeResponse s = .fault .noResponse := by
  simp [takeResponse, h]

theorem takeResponse_hostReset (s : State) : takeResponse (hostReset s) = .fault .noResponse :=
  takeResponse_of_no_response (hostReset_responses s)

/-- A step after a reset is idle, so there is still no response to take. -/
theorem takeResponse_of_step_hostReset {s t : State} (h : step (hostReset s) = .next t) :
    takeResponse t = .fault .noResponse := by
  rw [step_of_no_request (hostReset_requests s)] at h
  obtain rfl := Host.Outcome.next.inj h
  exact takeResponse_hostReset s

/-- A request issued where none waits is the next one answered. -/
theorem step_issue_of_no_request {s : State} (r : Request) (h : s.requests = []) :
    step (issue r s) = .next { s with
      answered := s.answered ++ [r], responses := s.responses ++ answer s.config r } := by
  have hnext : (issue r s).requests = [r] := by rw [issue_requests, h, List.nil_append]
  rw [step_eq_next hnext, ← h]
  rfl

/-- After a reset one step answers the first request, whichever it is, by its decoded operation. -/
theorem step_issue_hostReset (s : State) (r : Request) :
    step (issue r (hostReset s)) =
      .next { hostReset s with answered := [r], responses := [response s.config (decode r)] } := by
  rw [step_issue_of_no_request r (hostReset_requests s), answer_eq]
  rfl

theorem gives_decode_hostReset (s : State) (r : Request) :
    Gives (decode r) (hostReset s) (response s.config (decode r)) :=
  gives_iff.mpr rfl

/-- Settles O45, from the step after a reset, at any state and at the reset state. -/
theorem anyFirstRequestIsAnswered : Obligations.AnyFirstRequestIsAnswered := by
  refine ⟨fun s r => ?afterReset, fun r => ?atReset⟩
  case afterReset => exact ⟨_, step_issue_hostReset s r, gives_decode_hostReset s r, answer_eq s.config r⟩
  case atReset =>
    rw [← hostReset_reset]
    exact ⟨_, step_issue_hostReset State.reset r, gives_decode_hostReset State.reset r⟩

/-- Settles O44: a reset empties the block, and the step that follows is idle. -/
theorem resetLeavesBlockIdle : Obligations.ResetLeavesBlockIdle := by
  have hidle (s : State) : inProgress (hostReset s) = [] ∧ takeResponse (hostReset s) = .fault .noResponse ∧
      ∀ t : State, step (hostReset s) = .next t → takeResponse t = .fault .noResponse :=
    ⟨inProgress_hostReset s, takeResponse_hostReset s, fun _ => takeResponse_of_step_hostReset⟩
  obtain ⟨hprogress, htake, hstep⟩ := hostReset_reset ▸ hidle State.reset
  exact ⟨hprogress, htake, hstep, hidle⟩

end Sys2Proof.Machine

/-! ## Decoding and encoding are inverse, and the table selects one row (30_encoding.md R32, R33, R38) -/

namespace Sys2Proof

/-- Settles O4, operation by operation: the encoded operand fits its port, so the decoder reads it back. -/
theorem decodeEncodeRoundTrip : Obligations.DecodeEncodeRoundTrip := by
  intro base i hwf
  cases i with
  | bcdenc v =>
    rw [decode_eq_bcdenc rfl]
    exact congrArg Instr.bcdenc (InPort.toNat_ofNat_of_fits hwf)
  | bcddec b =>
    rw [decode_eq_bcddec rfl]
    exact congrArg Instr.bcddec (InPort.toNat_ofNat_of_fits hwf)
  | e2c t mode =>
    have ht : (BitVec.ofNat 32 t).toNat = t := InPort.toNat_ofNat_of_fits hwf
    rw [decode_eq_e2c rfl]
    simp only [encodeOn, ht, Mode.ofBit_toBit]
  | c2e y m d h mi s mode period =>
    simp only [Instr.wellFormed, Bool.and_eq_true, InPort.fits_iff, InPort.width] at hwf
    rw [decode_eq_c2e rfl]
    simp (disch := omega) only [encodeOn, BitVec.toNat_ofNat, Nat.mod_eq_of_lt, Mode.ofBit_toBit, Period.ofBit_toBit]
  | wday y m d =>
    simp only [Instr.wellFormed, Bool.and_eq_true, InPort.fits_iff, InPort.width] at hwf
    rw [decode_eq_wday rfl]
    simp (disch := omega) only [encodeOn, BitVec.toNat_ofNat, Nat.mod_eq_of_lt]
  | leap y =>
    rw [decode_eq_leap rfl]
    exact congrArg Instr.leap (InPort.toNat_ofNat_of_fits hwf)
  | rsvd6 => exact decode_eq_rsvd6 rfl
  | rsvd7 => exact decode_eq_rsvd7 rfl

/-- A port's value fits the port, so every operand of a decoded operation does. -/
theorem decode_wellFormed (r : Request) : (decode r).wellFormed = true := by
  obtain h | h | h | h | h | h | h | h := opcode_cases r.op
  · rw [decode_eq_bcdenc h]; exact r.port_fits .v
  · rw [decode_eq_bcddec h]; exact r.port_fits .b
  · rw [decode_eq_e2c h]; exact r.port_fits .t
  · rw [decode_eq_c2e h]
    simp only [Instr.wellFormed, Bool.and_eq_true]
    exact ⟨⟨⟨⟨⟨r.port_fits .year, r.port_fits .month⟩, r.port_fits .day⟩, r.port_fits .hour⟩, r.port_fits .minute⟩,
      r.port_fits .second⟩
  · rw [decode_eq_wday h]
    simp only [Instr.wellFormed, Bool.and_eq_true]
    exact ⟨⟨r.port_fits .year, r.port_fits .month⟩, r.port_fits .day⟩
  · rw [decode_eq_leap h]; exact r.port_fits .year
  · rw [decode_eq_rsvd6 h]; rfl
  · rw [decode_eq_rsvd7 h]; rfl

/-- Driving on every port of the format what the decoder read there changes nothing. -/
theorem encodeOn_decode (r : Request) : encodeOn r (decode r) = r := by
  obtain h | h | h | h | h | h | h | h := opcode_cases r.op
  · rw [decode_eq_bcdenc h]; simp [encodeOn, ← h]
  · rw [decode_eq_bcddec h]; simp [encodeOn, ← h]
  · rw [decode_eq_e2c h]; simp [encodeOn, ← h]
  · rw [decode_eq_c2e h]; simp [encodeOn, ← h]
  · rw [decode_eq_wday h]; simp [encodeOn, ← h]
  · rw [decode_eq_leap h]; simp [encodeOn, ← h]
  · rw [decode_eq_rsvd6 h]; simp [encodeOn, ← h]
  · rw [decode_eq_rsvd7 h]; simp [encodeOn, ← h]

/-- Settles O5, by its two halves. -/
theorem encodeDecodeRoundTrip : Obligations.EncodeDecodeRoundTrip :=
  fun r => ⟨decode_wellFormed r, encodeOn_decode r⟩

/-- Every operation has its row, which selects every encoding of it. -/
theorem encodes (i : Instr) : Laws.Encodes.Statement i := by
  cases i with
  | bcdenc v => exact Laws.Encodes.bcdenc v
  | bcddec b => exact Laws.Encodes.bcddec b
  | e2c t mode => exact Laws.Encodes.e2c t mode
  | c2e => exact Laws.Encodes.c2e ..
  | wday => exact Laws.Encodes.wday ..
  | leap y => exact Laws.Encodes.leap y
  | rsvd6 => exact Laws.Encodes.rsvd6
  | rsvd7 => exact Laws.Encodes.rsvd7

/-- Every mask is all ones and no two codes are equal, so no two rows select one code. -/
theorem opcodeTable_selects_unique :
    ∀ op : BitVec 3, ∀ row ∈ opcodeTable, ∀ row' ∈ opcodeTable,
      row.selects op = true → row'.selects op = true → row' = row := by
  decide

/-- Settles O2: a request is an encoding of its decoded operation, so that operation's row selects it, and no other. -/
theorem opcodeTableSelectsOneRow : Obligations.OpcodeTableSelectsOneRow := by
  intro r
  obtain ⟨row, hrow, hname, hsel⟩ := encodes (decode r)
  have hsel : row.selects r.op = true := encodeOn_decode r ▸ hsel r
  refine ⟨row, hrow, hname, fun row' hrow' => ⟨opcodeTable_selects_unique r.op row hrow row' hrow' hsel, ?_⟩⟩
  rintro rfl
  exact hsel

/-- Settles O3, by the decoder's equation for each operation code. -/
theorem writtenRequestsDecode : Obligations.WrittenRequestsDecode :=
  ⟨decode_eq_bcdenc rfl, decode_eq_bcddec rfl, decode_eq_e2c rfl, decode_eq_wday rfl, decode_eq_leap rfl⟩

end Sys2Proof

/-! ## What a step and each action of the host does to the block (10_state.md R11, R12; 70_reset_and_hazards.md) -/

namespace Sys2Proof.Machine

/-- A step is idle, or answers the oldest request and moves it to the answered ones. -/
theorem step_cases {s t : State} (h : step s = .next t) :
    (s.requests = [] ∧ t = s) ∨
    ∃ r rest, s.requests = r :: rest ∧ t = { s with
      requests := rest, answered := s.answered ++ [r], responses := s.responses ++ answer s.config r } := by
  cases hs : s.requests with
  | nil =>
    rw [step_of_no_request hs] at h
    exact .inl ⟨rfl, (Host.Outcome.next.inj h).symm⟩
  | cons r rest =>
    rw [step_eq_next hs] at h
    exact .inr ⟨r, rest, rfl, (Host.Outcome.next.inj h).symm⟩

theorem step_config {s t : State} (h : step s = .next t) : t.config = s.config := by
  obtain ⟨-, rfl⟩ | ⟨r, rest, -, rfl⟩ := step_cases h <;> rfl

theorem takeResponse_config {s t : State} {p : Response} (h : takeResponse s = .next (p, t)) :
    t.config = s.config := by
  obtain ⟨-, -, hconfig, -⟩ := takeResponse_eq_next h
  exact hconfig

/-- Settles O13, by the equation of a step where a request waits. -/
theorem stepExecutesDecodedRequest : Obligations.StepExecutesDecodedRequest := fun _ _ _ => step_eq_exec

/-- Settles O14, by the equation of a step where none waits. -/
theorem idleStepChangesNothing : Obligations.IdleStepChangesNothing := fun _ => step_of_no_request

/-- Settles O15: the placed word's request is the oldest one that waits. -/
theorem tableWordExecutesNext : Obligations.TableWordExecutesNext :=
  fun s nbits w => ⟨_, rfl, step_eq_exec (withFetchWord_requests s nbits w)⟩

theorem takeResponse_of_cons {s : State} {p : Response} {rest : List Response} (h : s.responses = p :: rest) :
    takeResponse s = .next (p, { s with answered := s.answered.tail, responses := rest }) := by
  simp [takeResponse, h]

/-- Settles O47: where a response waits and where none does. -/
theorem hostTakesOldestResponse : Obligations.HostTakesOldestResponse :=
  ⟨fun _ _ _ => takeResponse_of_cons, fun _ => takeResponse_of_no_response⟩

/-- Settles O16: the step leaves the one request answered and its one response to take. -/
theorem transactionLeavesNothingBehind : Obligations.TransactionLeavesNothingBehind := by
  intro c r
  refine ⟨response c (decode r), ⟨c, [], [r], [response c (decode r)]⟩, ?_, takeResponse_of_cons rfl, answer_eq c r⟩
  rw [step_issue_of_no_request r rfl, answer_eq]
  rfl

/-- The offset from 1 is below 7. -/
theorem mondayIndex_bounds (c : Config) : 1 ≤ c.mondayIndex ∧ c.mondayIndex ≤ 7 :=
  ⟨Nat.le_add_left 1 _, c.mondayOffset.isLt⟩

/-- The offset is all the builder fixes. -/
theorem mondayIndex_injective : Function.Injective Config.mondayIndex := by
  rintro ⟨k⟩ ⟨k'⟩ h
  exact congrArg Config.mk (Fin.ext (Nat.succ.inj h))

/-- Settles O48: the index `n` belongs to the build with the offset `n - 1`, and to no other. -/
theorem mondayIndexTakesEachDay : Obligations.MondayIndexTakesEachDay := by
  refine ⟨mondayIndex_bounds, fun n h₁ h₇ => ?_, rfl⟩
  have hn : (⟨⟨n - 1, by omega⟩⟩ : Config).mondayIndex = n := Nat.sub_add_cancel h₁
  exact ⟨_, hn, fun c' hc' => mondayIndex_injective (hc'.trans hn.symm)⟩

end Sys2Proof.Machine

/-! ## A change of ignored ports changes no answer (70_reset_and_hazards.md R79 (a), R80; 30_encoding.md R36) -/

namespace Sys2Proof

/-- The ports a response depends on are those of the format, but for `in.period` of `C2E` in 24-hour mode. -/
theorem Request.mem_portsUsed {r : Request} {p : InPort} :
    p ∈ r.portsUsed ↔ p ∈ portsRead r.op ∧ ¬(p = .period ∧ r.op = 3 ∧ r.mode = 0) := by
  unfold Request.portsUsed
  split
  · next h => simp [h]
  · next h => exact ⟨fun hp => ⟨hp, fun hperiod => h hperiod.2⟩, fun hp => hp.1⟩

end Sys2Proof

namespace Sys2Proof.Machine

/-- `C2E` in 24-hour mode answers alike whatever `in.period` carries. -/
theorem response_decode_period (c : Config) {r : Request} (x : BitVec 1) (hop : r.op = 3) (hmode : r.mode = 0) :
    response c (decode { r with period := x }) = response c (decode r) := by
  have hop' : ({ r with period := x } : Request).op = 3 := hop
  rw [decode_eq_c2e hop', decode_eq_c2e hop, hmode]
  rfl

/-- Requests with one operation code that agree on the ports the first one's response depends on have one response. -/
theorem response_decode_eq_of_portsUsed (c : Config) {d r : Request} (hop : d.op = r.op)
    (hports : ∀ p ∈ d.portsUsed, d.port p = r.port p) : response c (decode d) = response c (decode r) := by
  by_cases h24 : d.op = 3 ∧ d.mode = 0
  · obtain ⟨h3, hmode⟩ := h24
    rw [← response_decode_period c r.period h3 hmode]
    refine congrArg _ (decode_eq_of_ports_eq hop fun p hp => ?_)
    by_cases hperiod : p = .period
    · rw [hperiod]; rfl
    · rw [← hports p (Request.mem_portsUsed.mpr ⟨hp, fun h => hperiod h.1⟩)]
      cases p with
      | period => exact absurd rfl hperiod
      | _ => rfl
  · exact congrArg _ (decode_eq_of_ports_eq hop fun p hp =>
      hports p (Request.mem_portsUsed.mpr ⟨hp, fun h => h24 h.2⟩))

/-- Two states a host cannot tell apart by the responses: they differ at most in requests, pairwise of one answer. -/
structure AnswersAlike (s t : State) : Prop where
  config    : t.config = s.config
  requests  : t.requests.map (answer s.config) = s.requests.map (answer s.config)
  answered  : t.answered.map (answer s.config) = s.answered.map (answer s.config)
  responses : t.responses = s.responses

/-- Driving the ports again leads to a state that answers alike: the driven request keeps the ports it depends on. -/
theorem redrive_answersAlike {s t : State} {r : Request} (h : redrive r s = .next t) : AnswersAlike s t := by
  obtain ⟨-, rfl⟩ | ⟨d, older, hop, hports, hwhere⟩ := redrive_eq_next h
  · exact ⟨rfl, rfl, rfl, rfl⟩
  · have hanswer (hd : d ∈ inProgress s) : answer s.config r = answer s.config d := by
      rw [answer_eq, answer_eq, response_decode_eq_of_portsUsed s.config hop fun p hp =>
        hports p (mem_portsHeld.mpr ⟨d, hd, hp⟩)]
    obtain ⟨hrequests, rfl⟩ | ⟨-, hanswered, rfl⟩ := hwhere
    · exact ⟨rfl, by simp [hrequests, hanswer (by simp [inProgress, hrequests])], rfl, rfl⟩
    · exact ⟨rfl, rfl, by simp [hanswered, hanswer (by simp [inProgress, hanswered])], rfl⟩

/-- Settles O11, from what a step and each action of the host can do. -/
theorem buildParameterNeverWritten : Obligations.BuildParameterNeverWritten :=
  ⟨fun _ _ => step_config, fun _ _ _ h => (redrive_answersAlike h).config, fun _ _ _ => takeResponse_config,
    fun s r => issue_config r s, hostReset_config⟩

/-- States that answer alike step to states that answer alike. -/
theorem AnswersAlike.step {s t : State} (h : AnswersAlike s t) :
    ∃ s' t', step s = .next s' ∧ step t = .next t' ∧ AnswersAlike s' t' := by
  obtain ⟨hconfig, hrequests, hanswered, hresponses⟩ := h
  cases hs : s.requests with
  | nil =>
    have ht : t.requests = [] := by simpa [hs] using hrequests
    exact ⟨s, t, step_of_no_request hs, step_of_no_request ht, hconfig, hrequests, hanswered, hresponses⟩
  | cons r rest =>
    rw [hs, List.map_cons, List.map_eq_cons_iff] at hrequests
    obtain ⟨r', rest', ht, hr, hrest⟩ := hrequests
    refine ⟨_, _, step_eq_next hs, step_eq_next ht, hconfig, hrest, ?_, ?_⟩
    · simp [hanswered, hr]
    · simp [hconfig, hresponses, hr]

/-- So after any number of steps the responses are the same. -/
theorem AnswersAlike.run {s t : State} (h : AnswersAlike s t) (n : Nat) :
    ∃ s' t', Host.Core.run core n s = .next s' ∧ Host.Core.run core n t = .next t' ∧ AnswersAlike s' t' := by
  induction n generalizing s t with
  | zero => exact ⟨s, t, rfl, rfl, h⟩
  | succ n ih =>
    obtain ⟨s', t', hs, ht, h'⟩ := h.step
    rw [run_succ_of_step n hs, run_succ_of_step n ht]
    exact ih h'

/-- What the host has to keep, port by port: the operation code, and what any request in progress reads. -/
theorem keepsPorts_portsHeld_iff {s : State} {d r : Request} :
    keepsPorts (portsHeld s) d r = true ↔ r.op = d.op ∧ ∀ q ∈ inProgress s, ∀ p ∈ portsRead q.op,
      (p = .period ∧ q.op = 3 ∧ q.mode = 0) ∨ r.port p = d.port p := by
  rw [keepsPorts_iff, eq_comm (a := d.op)]
  refine and_congr_right fun _ => ⟨fun h q hq p hp => ?_, fun h p hp => ?_⟩
  · refine or_iff_not_imp_left.mpr fun hignored => (h p ?_).symm
    exact mem_portsHeld.mpr ⟨q, hq, Request.mem_portsUsed.mpr ⟨hp, hignored⟩⟩
  · obtain ⟨q, hq, hused⟩ := mem_portsHeld.mp hp
    obtain ⟨hread, hnot⟩ := Request.mem_portsUsed.mp hused
    exact ((h q hq p hread).resolve_left hnot).symm

theorem drivenRequest_of_inProgress {s : State} {d : Request} {older : List Request}
    (h : inProgress s = older ++ [d]) : drivenRequest s = some d := by
  rw [drivenRequest, h, List.getLast?_concat]

theorem redrive_of_driven {s : State} {d : Request} (r : Request) (h : drivenRequest s = some d) :
    redrive r s = if keepsPorts (portsHeld s) d r then .next (replaceDriven r s) else .refused .portsChanged := by
  simp only [redrive, h]

/-- The request issued last is the one replaced, and it stays where it is, waiting or answered. -/
theorem inProgress_replaceDriven {s : State} {d : Request} {older : List Request} (r : Request)
    (h : inProgress s = older ++ [d]) :
    inProgress (replaceDriven r s) = older ++ [r] ∧ (replaceDriven r s).answered.length = s.answered.length := by
  obtain ⟨before, hrequests⟩ | ⟨hnone, before, hanswered⟩ := drivenRequest_eq_some (drivenRequest_of_inProgress h)
  · rw [inProgress, hrequests, ← List.append_assoc] at h
    rw [replaceDriven_waiting hrequests, ← List.append_inj_left' h rfl]
    exact ⟨by simp [inProgress], rfl⟩
  · rw [inProgress, hnone, hanswered, List.append_nil] at h
    rw [replaceDriven_answered hnone hanswered, ← List.append_inj_left' h rfl]
    exact ⟨by simp [inProgress, hnone], by simp [hanswered]⟩

theorem redrive_of_idle {s : State} (r : Request) (h : inProgress s = []) : redrive r s = .next s := by
  simp only [redrive, drivenRequest_eq_none.mpr h]

/-- Settles O46: what the host is let to change leads to a state that answers alike, and what it is let to change is
decided port by port. -/
theorem onlyIgnoredPortsMayChange : Obligations.OnlyIgnoredPortsMayChange := by
  refine ⟨fun s t r h => ?alike, fun s r d older hlast => ?driven, fun s r ha hr => redrive_of_idle r ?idle⟩
  case alike =>
    have halike := redrive_answersAlike h
    refine ⟨halike.responses, halike.answered, fun n => ?_⟩
    obtain ⟨s', t', hs, ht, h'⟩ := halike.run n
    exact ⟨s', t', hs, ht, h'.responses⟩
  case driven =>
    have hdriven := redrive_of_driven r (drivenRequest_of_inProgress hlast)
    refine ⟨fun hheld => ?_, fun hnot => ?_⟩
    · rw [if_pos (keepsPorts_portsHeld_iff.mpr hheld)] at hdriven
      exact ⟨_, hdriven, inProgress_replaceDriven r hlast⟩
    · rwa [if_neg (mt keepsPorts_portsHeld_iff.mp hnot)] at hdriven
  case idle => rw [inProgress, ha, hr, List.append_nil]

end Sys2Proof.Machine

/-! ## Each untaken response stays the answer of its request (20_memory.md R28; 70_reset_and_hazards.md R79 (b)) -/

namespace Sys2Proof.Machine

/-- A step answers one request more, with its answer. -/
theorem Paired.step {s t : State} (hs : Paired s) (h : step s = .next t) : Paired t := by
  obtain ⟨-, rfl⟩ | ⟨r, rest, -, rfl⟩ := step_cases h
  · exact hs
  · have hs : s.responses = s.answered.flatMap (answer s.config) := hs
    simp [Paired, hs]

/-- Pairing depends on the answers of the answered requests alone. -/
theorem Paired.of_answersAlike {s t : State} (hs : Paired s) (h : AnswersAlike s t) : Paired t := by
  rw [Paired, h.responses, h.config, List.flatMap_def, h.answered, ← List.flatMap_def]
  exact hs

/-- The oldest response and the oldest answered request leave together. -/
theorem Paired.takeResponse {s t : State} {p : Response} (hs : Paired s) (h : takeResponse s = .next (p, t)) :
    Paired t ∧ ∃ r : Request, s.answered = r :: t.answered ∧ answer s.config r = [p] := by
  obtain ⟨hresponses, htail, hconfig, -⟩ := takeResponse_eq_next h
  rw [Paired, hresponses] at hs
  rw [Paired, hconfig, htail]
  cases ha : s.answered with
  | nil => simp [ha] at hs
  | cons r older =>
    rw [ha, List.flatMap_cons, answer_eq, List.singleton_append, List.cons.injEq] at hs
    obtain ⟨rfl, hrest⟩ := hs
    exact ⟨hrest, r, rfl, answer_eq s.config r⟩

/-- Settles O49, action by action; issuing touches neither list, and a reset empties both. -/
theorem responsesStayWithRequests : Obligations.ResponsesStayWithRequests :=
  ⟨fun _ _ => Paired.step, fun _ _ _ hs h => hs.of_answersAlike (redrive_answersAlike h),
    fun _ _ _ => Paired.takeResponse, fun _ _ hs => hs, fun _ => rfl⟩

/-- Settles O50: both lists are empty. -/
theorem resetMeetsPairing : Obligations.ResetMeetsPairing := rfl

end Sys2Proof.Machine

/-! ## The date E2C gives (41_epoch_conversion.md R58, R59) -/

namespace Sys2Proof.Machine

theorem daysInYear_pos (y : Nat) : 365 ≤ daysInYear y := by
  rw [daysInYear_eq]; exact Nat.le_add_right ..

/-- With at least as many passes allowed as days the year loop ends by its condition, having moved whole years from
the days left to the days before the year. -/
theorem yearLoop_spec {fuel days y left y' : Nat} (hy : 1 ≤ y) (hfuel : days ≤ fuel)
    (h : yearLoop fuel days y = (left, y')) :
    left < daysInYear y' ∧ y ≤ y' ∧ daysBeforeYear y' + left = daysBeforeYear y + days := by
  have hpos := daysInYear_pos y
  induction fuel generalizing days y with
  | zero =>
    obtain ⟨rfl, rfl⟩ := Prod.mk.inj h
    exact ⟨by omega, le_rfl, rfl⟩
  | succ fuel ih =>
    rw [yearLoop] at h
    split at h
    · obtain ⟨hleft, hle, hdays⟩ := ih (by omega) (by omega) h (daysInYear_pos _)
      have hsucc := daysBeforeYear_succ hy
      exact ⟨hleft, by omega, by omega⟩
    · obtain ⟨rfl, rfl⟩ := Prod.mk.inj h
      exact ⟨by omega, le_rfl, rfl⟩

/-- The twelve months make up the year, so a month with fewer days before it than the year has is one of them. -/
theorem month_le_twelve {y m : Nat} (h : daysBeforeMonth y m < daysInYear y) : m ≤ 12 := by
  by_contra hm
  have hle : daysBeforeMonth y 13 ≤ daysBeforeMonth y m := daysBeforeMonth_monotone y (by omega)
  have hend : daysBeforeMonth y 13 = daysInYear y := daysInMonths_twelve y
  omega

/-- Likewise the month loop, from days that end within the year. -/
theorem monthLoop_spec {fuel y left m rest m' : Nat} (hm : 1 ≤ m) (hfuel : left ≤ fuel)
    (hleft : daysBeforeMonth y m + left < daysInYear y) (h : monthLoop y fuel left m = (rest, m')) :
    rest < daysInMonth y m' ∧ 1 ≤ m' ∧ m' ≤ 12 ∧ daysBeforeMonth y m' + rest = daysBeforeMonth y m + left := by
  induction fuel generalizing left m with
  | zero =>
    obtain ⟨rfl, rfl⟩ := Prod.mk.inj h
    have hm' : m ≤ 12 := month_le_twelve (y := y) (by omega)
    obtain ⟨hpos, -⟩ := daysInMonth_bounds y hm hm'
    exact ⟨by omega, hm, hm', rfl⟩
  | succ fuel ih =>
    have hm' : m ≤ 12 := month_le_twelve (y := y) (by omega)
    obtain ⟨hpos, -⟩ := daysInMonth_bounds y hm hm'
    have hsucc := daysBeforeMonth_succ y hm
    rw [monthLoop] at h
    split at h
    · obtain ⟨hrest, h₁, h₁₂, hdays⟩ := ih (by omega) (by omega) (by omega) h
      exact ⟨hrest, h₁, h₁₂, by omega⟩
    · obtain ⟨rfl, rfl⟩ := Prod.mk.inj h
      exact ⟨by omega, hm, hm', rfl⟩

theorem daysBeforeYear_epoch : daysBeforeYear 1970 = 719162 := by decide

/-- The year loop stops by 2106: the days of a 32-bit timestamp do not reach 2107 (R59 (a)). -/
theorem year_le_2106 {y days : Nat} (hdays : days ≤ 49710) (h : daysBeforeYear y ≤ 719162 + days) : y ≤ 2106 := by
  by_contra hy
  have hle : daysBeforeYear 2107 ≤ daysBeforeYear y := daysBeforeYear_mono (by omega) (by omega)
  have h2107 : daysBeforeYear 2107 = 769200 := by decide
  omega

/-- Settles O30, from what the two loops keep. -/
theorem loopsStopByCondition : Obligations.LoopsStopByCondition := by
  refine ⟨fun fuel days hfuel => ?year, fun fuel left y hfuel hleft => ?month⟩
  case year =>
    obtain ⟨hleft, hle, hdays⟩ := yearLoop_spec (y := 1970) (by decide) hfuel rfl
    exact ⟨hleft, hle, hdays, fun hmax => year_le_2106 hmax (daysBeforeYear_epoch ▸ Nat.le.intro hdays)⟩
  case month =>
    obtain ⟨hrest, h₁, h₁₂, hdays⟩ := monthLoop_spec (y := y) le_rfl hfuel (by simpa using hleft) rfl
    exact ⟨hrest, h₁, h₁₂, by simpa using hdays⟩

/-- `dateOfDays` gives a valid date from 1970 on, with the day number it was asked for. -/
theorem dateOfDays_spec {days y m d : Nat} (h : dateOfDays days = (y, m, d)) :
    1970 ≤ y ∧ dateValid y m d = true ∧ dayNumber y m d = 719162 + days := by
  obtain ⟨left, y₁, hloop⟩ : ∃ left y₁, yearLoop days days 1970 = (left, y₁) := ⟨_, _, rfl⟩
  obtain ⟨rest, m₁, hloop'⟩ : ∃ rest m₁, monthLoop y₁ left left 1 = (rest, m₁) := ⟨_, _, rfl⟩
  simp only [dateOfDays, hloop, hloop', Prod.mk.injEq] at h
  obtain ⟨rfl, rfl, rfl⟩ := h
  obtain ⟨hleft, hle, hyear⟩ := yearLoop_spec (by decide) le_rfl hloop
  obtain ⟨hrest, h₁, h₁₂, hmonth⟩ := monthLoop_spec le_rfl le_rfl (by simpa using hleft) hloop'
  rw [daysBeforeYear_epoch] at hyear
  rw [daysBeforeMonth_one] at hmonth
  refine ⟨hle, dateValid_iff.mpr ⟨⟨h₁, h₁₂⟩, by omega, hrest⟩, ?_⟩
  rw [dayNumber]
  omega

/-- A day number belongs to one valid date: of two dates one is the earlier. -/
theorem date_eq_of_dayNumber_eq {y m d y' m' d' : Nat} (hy : 1 ≤ y) (hv : dateValid y m d = true) (hy' : 1 ≤ y')
    (hv' : dateValid y' m' d' = true) (h : dayNumber y m d = dayNumber y' m' d') : y = y' ∧ m = m' ∧ d = d' := by
  obtain ⟨-, hd, -⟩ := dateValid_iff.mp hv
  obtain ⟨-, hd', -⟩ := dateValid_iff.mp hv'
  obtain hlt | heq | hgt := lt_trichotomy [y, m, d] [y', m', d']
  · exact absurd h (dayNumber_lt_of_date_lt hy hv hd' hlt).ne
  · simpa using heq
  · exact absurd h (dayNumber_lt_of_date_lt hy' hv' hd hgt).ne'

/-- So `dateOfDays` gives the one valid date with that day number. -/
theorem dateOfDays_eq_of_dayNumber {days y m d : Nat} (hy : 1 ≤ y) (hv : dateValid y m d = true)
    (h : dayNumber y m d = 719162 + days) : dateOfDays days = (y, m, d) := by
  obtain ⟨y', m', d', hdate⟩ : ∃ y' m' d', dateOfDays days = (y', m', d') := ⟨_, _, _, rfl⟩
  obtain ⟨hy', hv', h'⟩ := dateOfDays_spec hdate
  obtain ⟨rfl, rfl, rfl⟩ := date_eq_of_dayNumber_eq hy hv (by omega) hv' (h.trans h'.symm)
  exact hdate

end Sys2Proof.Machine

/-! ## The response of E2C, port by port (41_epoch_conversion.md R58) -/

namespace Sys2Proof.Machine

/-- The hour and period shown are in the range of the mode. -/
theorem clockOf_hour {h : Nat} (hh : h < 24) (mode : Mode) :
    (mode = .h24 → (clockOf h mode).1 ≤ 23) ∧ (mode = .h12 → 1 ≤ (clockOf h mode).1 ∧ (clockOf h mode).1 ≤ 12) := by
  cases mode with
  | h24 => exact ⟨fun _ => Nat.le_of_lt_succ hh, nofun⟩
  | h12 =>
    refine ⟨nofun, fun _ => ?_⟩
    simp only [clockOf]
    obtain ham | hpm := Nat.lt_or_ge h 12
    · rw [to12h_of_am ham]; dsimp only; split <;> omega
    · rw [to12h_of_pm hpm]; dsimp only; split <;> omega

theorem clockOf_hour_le {h : Nat} (hh : h < 24) (mode : Mode) : (clockOf h mode).1 ≤ 23 := by
  obtain ⟨h24, h12⟩ := clockOf_hour hh mode
  cases mode with
  | h24 => exact h24 rfl
  | h12 => exact (h12 rfl).2.trans (by decide)

/-- Reading the hour and period shown in a mode gives back the hour. -/
theorem hourOf_clockOf {h : Nat} (hh : h < 24) (mode : Mode) :
    hourOf (clockOf h mode).1 (clockOf h mode).2 mode = h := by
  cases mode with
  | h24 => rfl
  | h12 => exact to24h_to12h hh

/-- Showing the hour that was read in a mode gives back the hour operand, and the period where the mode has one. -/
theorem clockOf_hourOf {h : Nat} {period : Period} {mode : Mode} (h12 : mode = .h12 → 1 ≤ h ∧ h ≤ 12) :
    clockOf (hourOf h period mode) mode = (h, if mode = .h12 then period else .am) := by
  cases mode with
  | h24 => rfl
  | h12 =>
    obtain ⟨h₁, h₂⟩ := h12 rfl
    exact to12h_to24h h₁ h₂ period

/-- The ports of a response of `E2C` carry the date of the timestamp and its time of day, shown in the mode. -/
structure ShowsInstant (t : Nat) (mode : Mode) (p : Response) : Prop where
  date   : (p.year.toNat, p.month.toNat, p.day.toNat) = dateOfDays (t / 86400)
  clock  : (p.hour.toNat, Period.ofBit p.period) = clockOf (t / 3600 % 24) mode
  minute : p.minute.toNat = t / 60 % 60
  second : p.second.toNat = t % 60

/-- The date of a 32-bit timestamp is in the ranges of the ports that carry it. -/
theorem dateOfDays_le {days y m d : Nat} (hdays : days ≤ 49710) (h : dateOfDays days = (y, m, d)) :
    y ≤ 2106 ∧ m ≤ 12 ∧ d ≤ 31 := by
  obtain ⟨-, hv, hnum⟩ := dateOfDays_spec h
  obtain ⟨⟨h₁, h₁₂⟩, -, hd⟩ := dateValid_iff.mp hv
  obtain ⟨-, h₃₁⟩ := daysInMonth_bounds y h₁ h₁₂
  rw [dayNumber] at hnum
  exact ⟨year_le_2106 hdays (by omega), h₁₂, hd.trans h₃₁⟩

/-- The date and the time of day of a 32-bit timestamp fit the ports, so the response carries them uncut (R58). -/
theorem e2cResponse_showsInstant {t : Nat} (ht : t < 2 ^ 32) (mode : Mode) :
    ShowsInstant t mode (e2cResponse t mode) := by
  obtain ⟨y, m, d, hdate⟩ : ∃ y m d, dateOfDays (t / 86400) = (y, m, d) := ⟨_, _, _, rfl⟩
  obtain ⟨h, period, hclock⟩ : ∃ h period, clockOf (t / 3600 % 24) mode = (h, period) := ⟨_, _, rfl⟩
  obtain ⟨hy, hm, hd⟩ := dateOfDays_le (by omega) hdate
  have hh : h ≤ 23 := by simpa only [hclock] using clockOf_hour_le (Nat.mod_lt (t / 3600) (by decide)) mode
  have heq : e2cResponse t mode = { Response.zero with
      year := BitVec.ofNat 16 y, month := BitVec.ofNat 4 m, day := BitVec.ofNat 5 d, hour := BitVec.ofNat 5 h,
      minute := BitVec.ofNat 6 (t / 60 % 60), second := BitVec.ofNat 6 (t % 60), period := period.toBit,
      err := errBit false } := by
    simp only [e2cResponse, hdate, hclock]
  rw [heq]
  constructor
  · simp (disch := omega) only [hdate, BitVec.toNat_ofNat, Nat.mod_eq_of_lt]
  · simp (disch := omega) only [hclock, BitVec.toNat_ofNat, Nat.mod_eq_of_lt, Period.ofBit_toBit]
  · simp (disch := omega) only [BitVec.toNat_ofNat, Nat.mod_eq_of_lt]
  · simp (disch := omega) only [BitVec.toNat_ofNat, Nat.mod_eq_of_lt]

section
variable {t : Nat} {mode : Mode} {p : Response}

theorem ShowsInstant.date_spec (h : ShowsInstant t mode p) :
    1970 ≤ p.year.toNat ∧ dateValid p.year.toNat p.month.toNat p.day.toNat = true ∧
      dayNumber p.year.toNat p.month.toNat p.day.toNat = 719162 + t / 86400 :=
  dateOfDays_spec h.date.symm

/-- The one valid date with the day number of the timestamp is the date shown. -/
theorem ShowsInstant.date_eq {y m d : Nat} (h : ShowsInstant t mode p) (hy : 1 ≤ y) (hv : dateValid y m d = true)
    (hnum : dayNumber y m d = 719162 + t / 86400) : (p.year.toNat, p.month.toNat, p.day.toNat) = (y, m, d) :=
  h.date.trans (dateOfDays_eq_of_dayNumber hy hv hnum)

theorem ShowsInstant.hour_eq (h : ShowsInstant t mode p) :
    p.hour.toNat = (clockOf (t / 3600 % 24) mode).1 ∧ Period.ofBit p.period = (clockOf (t / 3600 % 24) mode).2 := by
  rw [← h.clock]
  exact ⟨rfl, rfl⟩

/-- The hour shown is in the range of the mode, and read in the mode it is the hour of the timestamp. -/
theorem ShowsInstant.hour_spec (h : ShowsInstant t mode p) :
    (mode = .h24 → p.hour.toNat ≤ 23) ∧ (mode = .h12 → 1 ≤ p.hour.toNat ∧ p.hour.toNat ≤ 12) ∧
      hourOf p.hour.toNat (Period.ofBit p.period) mode = t / 3600 % 24 := by
  obtain ⟨hhour, hperiod⟩ := h.hour_eq
  have hlt : t / 3600 % 24 < 24 := Nat.mod_lt _ (by decide)
  obtain ⟨h24, h12⟩ := clockOf_hour hlt mode
  rw [hhour, hperiod]
  exact ⟨h24, h12, hourOf_clockOf hlt mode⟩

end

theorem gives_e2c_iff {t : Nat} {mode : Mode} {s : State} {p : Response} :
    Gives (.e2c t mode) s p ↔ p = e2cResponse t mode :=
  gives_iff

/-- Settles O31: the fields shown, with the one valid date of their day number. -/
theorem e2cGivesCalendarDate : Obligations.E2cGivesCalendarDate := by
  refine ⟨fun r mode hop hmode => ?decode, fun t mode s ht => ⟨_, exec_eq_next (.e2c t mode) s, rfl, ?exec⟩⟩
  case decode => rw [decode_eq_e2c hop, hmode, Mode.ofBit_toBit]
  case exec =>
    have hshows : ShowsInstant t mode (response s.config (.e2c t mode)) := e2cResponse_showsInstant ht mode
    generalize response s.config (.e2c t mode) = p at hshows ⊢
    obtain ⟨hy, hv, hnum⟩ := hshows.date_spec
    obtain ⟨hy', -⟩ := dateOfDays_le (by omega) hshows.date.symm
    obtain ⟨-, h12, hhour⟩ := hshows.hour_spec
    refine ⟨hy, hy', hv, hnum, fun y m d hy₁ hv' hnum' => ?date, hshows.second, hshows.minute, fun hmode => ?h24,
      fun hmode => ?h12⟩
    case date => simpa [eq_comm] using hshows.date_eq hy₁ hv' hnum'
    case h24 =>
      subst hmode
      obtain ⟨-, hperiod⟩ := hshows.hour_eq
      exact ⟨hhour, by rw [← Period.toBit_ofBit p.period, hperiod]; rfl⟩
    case h12 =>
      subst hmode
      obtain ⟨h₁, h₁₂⟩ := h12 rfl
      refine ⟨h₁, h₁₂, ?_⟩
      rw [← Period.toBit_ofBit p.period, Period.toNat_toBit]
      exact hhour

/-- The successor of a valid date is a valid date, of the same year or the next. -/
theorem dateValid_nextDate {y m d : Nat} (hv : dateValid y m d = true) :
    y ≤ (nextDate y m d).1 ∧
      dateValid (nextDate y m d).1 (nextDate y m d).2.1 (nextDate y m d).2.2 = true := by
  obtain ⟨⟨h₁, h₁₂⟩, hd⟩ := dateValid_iff.mp hv
  obtain ⟨hlt, hn⟩ | ⟨-, hlt, hn⟩ | ⟨-, -, hn⟩ := nextDate_cases hv <;> rw [hn, dateValid_iff] <;> dsimp only
  · omega
  · obtain ⟨hpos, -⟩ := daysInMonth_bounds y (m := m + 1) (by omega) (by omega)
    omega
  · obtain ⟨hpos, -⟩ := daysInMonth_bounds (y + 1) (m := 1) (by omega) (by omega)
    omega

/-- Timestamps of one time of day show it alike. -/
theorem ShowsInstant.time_eq {t t' : Nat} {mode : Mode} {p q : Response} (hp : ShowsInstant t mode p)
    (hq : ShowsInstant t' mode q) (h : t' % 86400 = t % 86400) :
    q.hour = p.hour ∧ q.minute = p.minute ∧ q.second = p.second ∧ q.period = p.period := by
  have hhour : t' / 3600 % 24 = t / 3600 % 24 := by omega
  have hminute : t' / 60 % 60 = t / 60 % 60 := by omega
  have hsecond : t' % 60 = t % 60 := by omega
  obtain ⟨hpHour, hpPeriod⟩ := hp.hour_eq
  obtain ⟨hqHour, hqPeriod⟩ := hq.hour_eq
  refine ⟨BitVec.eq_of_toNat_eq ?_, BitVec.eq_of_toNat_eq ?_, BitVec.eq_of_toNat_eq ?_, ?_⟩
  · rw [hpHour, hqHour, hhour]
  · rw [hp.minute, hq.minute, hminute]
  · rw [hp.second, hq.second, hsecond]
  · rw [← Period.toBit_ofBit p.period, ← Period.toBit_ofBit q.period, hpPeriod, hqPeriod, hhour]

/-- Settles O32: the next date is the one valid date with the next day number. -/
theorem daysAre86400Seconds : Obligations.DaysAre86400Seconds := by
  intro t mode s ht
  have hp := e2cResponse_showsInstant (t := t) (by omega) mode
  have hq := e2cResponse_showsInstant ht mode
  obtain ⟨hy, hv, hnum⟩ := hp.date_spec
  obtain ⟨hle, hnext⟩ := dateValid_nextDate hv
  have hnum' := dayNumber_nextDate (by omega) hv
  have hdate := hq.date_eq (by omega) hnext (by omega)
  exact ⟨_, _, gives_e2c_iff.mpr rfl, gives_e2c_iff.mpr rfl, hdate, hp.time_eq hq (Nat.add_mod_right t 86400)⟩

/-- Settles O37: both responses show one date, minute and second, and the hour as it stands or by `to12h`. -/
theorem modesDifferInHourOnly : Obligations.ModesDifferInHourOnly := by
  intro t s ht
  have hp := e2cResponse_showsInstant ht .h24
  have hq := e2cResponse_showsInstant ht .h12
  obtain ⟨hhour, -⟩ := hp.hour_eq
  refine ⟨_, _, gives_e2c_iff.mpr rfl, gives_e2c_iff.mpr rfl, rfl, ?_⟩
  rw [hhour]
  exact hq.clock

end Sys2Proof.Machine

/-! ## E2C and C2E are inverse, and C2E keeps the order of instants (41_epoch_conversion.md R62) -/

namespace Sys2Proof.Machine

/-- Fields in the domain of `C2E` with a timestamp up to `T_MAX` are answered with it, without error. -/
theorem gives_c2e_of_inside {f : Fields} {s : State} {t : Nat}
    (hin : c2eOutside f.year f.month f.day f.hour f.minute f.second f.mode = false) (ht : t ≤ 4294967295)
    (hstamp : timestampOf f.year f.month f.day (hourOf f.hour f.period f.mode) f.minute f.second = t) :
    Gives f.c2e s (c2eResponse t) := by
  subst hstamp
  exact gives_iff.mpr (response_c2e_of_inside s.config hin ht).symm

/-- Only such fields are answered without error. -/
theorem c2e_accepted {f : Fields} {s : State} {q : Response} (hq : Gives f.c2e s q) (herr : q.err = 0) :
    c2eOutside f.year f.month f.day f.hour f.minute f.second f.mode = false ∧
      q.t.toNat = timestampOf f.year f.month f.day (hourOf f.hour f.period f.mode) f.minute f.second := by
  obtain rfl := gives_iff.mp hq
  obtain ⟨-, hp⟩ | ⟨hin, hnotLate, hp⟩ :=
    response_c2e_cases s.config f.year f.month f.day f.hour f.minute f.second f.mode f.period
  · rw [Fields.c2e, hp] at herr
    cases herr
  · rw [Fields.c2e, hp]
    exact ⟨hin, c2eResponse_t (c2eTooLate_eq_false_iff.mp hnotLate)⟩

/-- The fields shown are in the domain of `C2E`. -/
theorem ShowsInstant.c2eOutside_eq {t : Nat} {mode : Mode} {p : Response} (h : ShowsInstant t mode p) :
    c2eOutside p.year.toNat p.month.toNat p.day.toNat p.hour.toNat p.minute.toNat p.second.toNat mode = false := by
  obtain ⟨hy, hv, -⟩ := h.date_spec
  obtain ⟨hm, hd⟩ := dateValid_iff.mp hv
  obtain ⟨h24, h12, -⟩ := h.hour_spec
  rw [c2eOutside_eq_false_iff, h.minute, h.second]
  exact ⟨hy, hm, hd, Nat.mod_lt _ (by decide), Nat.mod_lt _ (by decide), h24, h12⟩

/-- Their timestamp is the one they show: days, hours, minutes and seconds make it up. -/
theorem ShowsInstant.timestampOf_eq {t : Nat} {mode : Mode} {p : Response} (h : ShowsInstant t mode p) :
    timestampOf p.year.toNat p.month.toNat p.day.toNat (hourOf p.hour.toNat (Period.ofBit p.period) mode)
      p.minute.toNat p.second.toNat = t := by
  obtain ⟨-, -, hnum⟩ := h.date_spec
  obtain ⟨-, -, hhour⟩ := h.hour_spec
  rw [Machine.timestampOf_eq, hnum, hhour, h.minute, h.second]
  omega

/-- Settles O34: the fields shown are accepted, and make up the timestamp. -/
theorem c2eInvertsE2c : Obligations.C2eInvertsE2c := by
  intro t mode s ht
  have hshows := e2cResponse_showsInstant ht mode
  have hle : t ≤ 4294967295 := Nat.le_of_lt_succ ht
  exact ⟨_, _, gives_e2c_iff.mpr rfl, gives_c2e_of_inside hshows.c2eOutside_eq hle hshows.timestampOf_eq, rfl,
    c2eResponse_t hle⟩

/-- A timestamp from 1970 on can be taken apart again: a time of day is less than a day. -/
theorem timestampOf_parts {y m d h mi s t : Nat} (hy : 1970 ≤ y) (hh : h < 24) (hmi : mi < 60) (hs : s < 60)
    (ht : t = timestampOf y m d h mi s) :
    dayNumber y m d = 719162 + t / 86400 ∧ t / 3600 % 24 = h ∧ t / 60 % 60 = mi ∧ t % 60 = s := by
  have hepoch := epochDaynum_le_dayNumber hy m d
  rw [timestampOf_eq] at ht
  omega

/-- A response that shows the timestamp of fields in the domain of `C2E` shows these fields. -/
theorem ShowsInstant.fieldsOf_eq {f : Fields} {t : Nat} {p : Response} (h : ShowsInstant t f.mode p)
    (hin : c2eOutside f.year f.month f.day f.hour f.minute f.second f.mode = false)
    (ht : t = timestampOf f.year f.month f.day (hourOf f.hour f.period f.mode) f.minute f.second) :
    fieldsOf p f.mode = { f with period := if f.mode = .h12 then f.period else .am } := by
  obtain ⟨hy, hm, hd, hs, hmi, h24, h12⟩ := c2eOutside_eq_false_iff.mp hin
  obtain ⟨hday, htime, hminute, hsecond⟩ := timestampOf_parts hy (hourOf_lt f.period h24) hmi hs ht
  have hdate := h.date_eq (by omega) (dateValid_iff.mpr ⟨hm, hd⟩) hday
  have hclock := h.clock
  rw [htime, clockOf_hourOf h12] at hclock
  simp only [Prod.mk.injEq] at hdate hclock
  simp only [fieldsOf, hdate, hclock, h.minute, h.second, hminute, hsecond]

/-- Settles O35: the timestamp shows the accepted fields again. -/
theorem e2cInvertsC2e : Obligations.E2cInvertsC2e := by
  intro f s q hq herr
  obtain ⟨hin, hstamp⟩ := c2e_accepted hq herr
  exact ⟨_, gives_e2c_iff.mpr rfl, rfl, (e2cResponse_showsInstant q.t.isLt f.mode).fieldsOf_eq hin hstamp⟩

section
variable {f g : Fields} {s : State} {p q : Response}

theorem c2e_lt_of_instant_lt (hp : Gives f.c2e s p) (hpErr : p.err = 0) (hq : Gives g.c2e s q) (hqErr : q.err = 0)
    (hlt : f.instant < g.instant) : p.t.toNat < q.t.toNat := by
  obtain ⟨hfIn, hfStamp⟩ := c2e_accepted hp hpErr
  obtain ⟨hgIn, hgStamp⟩ := c2e_accepted hq hqErr
  obtain ⟨hy, hm, hd, hs, hmi, h24, -⟩ := c2eOutside_eq_false_iff.mp hfIn
  obtain ⟨-, -, ⟨hd', -⟩, -, hmi', -⟩ := c2eOutside_eq_false_iff.mp hgIn
  rw [hfStamp, hgStamp]
  exact timestampOf_lt_of_instant_lt hy (dateValid_iff.mpr ⟨hm, hd⟩) (hourOf_lt f.period h24) hmi hs hd' hmi' hlt

theorem c2e_eq_of_instant_eq (hp : Gives f.c2e s p) (hpErr : p.err = 0) (hq : Gives g.c2e s q) (hqErr : q.err = 0)
    (heq : f.instant = g.instant) : p.t.toNat = q.t.toNat := by
  obtain ⟨-, hfStamp⟩ := c2e_accepted hp hpErr
  obtain ⟨-, hgStamp⟩ := c2e_accepted hq hqErr
  simp only [Fields.instant, List.cons.injEq, and_true] at heq
  obtain ⟨hy, hm, hd, hh, hmi, hs⟩ := heq
  rw [hfStamp, hgStamp, hy, hm, hd, hh, hmi, hs]

end

/-- Settles O36: the earlier instant has the smaller timestamp, so timestamps are equal only where instants are. -/
theorem c2eIsChronological : Obligations.C2eIsChronological := by
  intro f g s p q hp hpErr hq hqErr
  refine ⟨c2e_lt_of_instant_lt hp hpErr hq hqErr, ?_⟩
  rw [← BitVec.toNat_inj]
  refine ⟨fun ht => ?_, c2e_eq_of_instant_eq hp hpErr hq hqErr⟩
  obtain hlt | heq | hgt := lt_trichotomy f.instant g.instant
  · exact absurd ht (c2e_lt_of_instant_lt hp hpErr hq hqErr hlt).ne
  · exact heq
  · exact absurd ht (c2e_lt_of_instant_lt hq hqErr hp hpErr hgt).ne'

end Sys2Proof.Machine

/-! ## The weekday from day to day, and of a timestamp (40_calendar_primitives.md R54) -/

namespace Sys2Proof.Machine

theorem wdayOutside_eq_false {y m d : Nat} (hy : 1 ≤ y) (hv : dateValid y m d = true) :
    wdayOutside y m d = false := by
  have hy₀ : y ≠ 0 := by omega
  simp [wdayOutside, hy₀, hv]

/-- A valid date from year 1 on is answered with its weekday, without error. -/
theorem gives_wday {y m d : Nat} (s : State) (hy : 1 ≤ y) (hv : dateValid y m d = true) :
    Gives (.wday y m d) s (wdayResponse s.config.mondayIndex y m d) := by
  rw [gives_iff, response, wdayOutside_eq_false hy hv]
  rfl

/-- The index goes round with the day number. -/
theorem weekdayIndex_succ {mondayIndex n : Nat} (hmonday : 1 ≤ mondayIndex) :
    weekdayIndex mondayIndex ((n + 1) % 7) =
      if weekdayIndex mondayIndex (n % 7) = 7 then 1 else weekdayIndex mondayIndex (n % 7) + 1 := by
  split
  · next h => simp only [weekdayIndex] at h ⊢; omega
  · next h => simp only [weekdayIndex] at h ⊢; omega

/-- Settles O26, from the day number of the next date. -/
theorem weekdayAdvancesDaily : Obligations.WeekdayAdvancesDaily := by
  intro y m d s hy hv
  obtain ⟨hle, hnext⟩ := dateValid_nextDate hv
  obtain ⟨hmonday, -⟩ := mondayIndex_bounds s.config
  refine ⟨_, _, gives_wday s hy hv, gives_wday s (hy.trans hle) hnext, rfl, rfl, ?_⟩
  simp only [wdayResponse_weekday, weekdayOffset, dayNumber_nextDate hy hv]
  exact weekdayIndex_succ hmonday

/-- 400 years are a whole number of weeks. -/
theorem weekdayOffset_add_400 {y : Nat} (hy : 1 ≤ y) (m d : Nat) :
    weekdayOffset (y + 400) m d = weekdayOffset y m d := by
  simp only [weekdayOffset, dayNumber_add_400 hy]
  omega

/-- Settles O27: the date 400 years later is as valid, with the same weekday. -/
theorem weekdayRepeatsEvery400Years : Obligations.WeekdayRepeatsEvery400Years := by
  intro y m d s hy hv
  have hv' : dateValid (y + 400) m d = true := by rwa [dateValid_iff, daysInMonth_add_400, ← dateValid_iff]
  rw [gives_wday s hy hv, gives_wday s (by omega) hv', wdayResponse, wdayResponse, weekdayOffset_add_400 hy]

/-- Settles O28: 1970-01-01 is three days after a Monday, since its day number is 3 modulo 7. -/
theorem weekdayOfTimestamp : Obligations.WeekdayOfTimestamp := by
  intro t mode s ht
  obtain ⟨hy, hv, hnum⟩ := (e2cResponse_showsInstant ht mode).date_spec
  refine ⟨_, _, gives_e2c_iff.mpr rfl, gives_wday s (by omega) hv, rfl, ?_⟩
  have hoffset : (719162 + t / 86400) % 7 = (t / 86400 + 3) % 7 := by omega
  rw [wdayResponse_weekday, weekdayOffset, hnum, hoffset, weekdayIndex]

/-- Settles O25: the day number of 2024-01-01 is a multiple of 7. -/
theorem referenceDateIsMonday : Obligations.ReferenceDateIsMonday := by
  intro s
  have hoffset : weekdayOffset 2024 1 1 = 0 := by decide
  obtain ⟨hmonday, hmonday'⟩ := mondayIndex_bounds s.config
  refine ⟨_, gives_wday s (by decide) (by decide), rfl, ?_⟩
  rw [wdayResponse_weekday, hoffset, weekdayIndex]
  omega

end Sys2Proof.Machine

/-! ## The ranges of the output ports (10_state.md R19), and which fields the BCD encoder accepts (R66) -/

namespace Sys2Proof.Machine

/-- The port value 0, which an operation leaves on every port it does not assign (R20), is in every range. -/
theorem inRange_zero : InRange Response.zero := by
  constructor <;> decide

theorem inRange_errorResponse : InRange errorResponse := { inRange_zero with }

theorem inRange_bcdencResponse {v : Nat} (hv : v < 128) : InRange (bcdencResponse v) :=
  { inRange_zero with bcd := by rw [bcdencResponse_bcd hv]; omega }

theorem inRange_bcddecResponse {b : Nat} (hb : b < 256) : InRange (bcddecResponse b) :=
  { inRange_zero with bin := by rw [bcddecResponse_bin hb]; omega }

theorem inRange_e2cResponse {t : Nat} (mode : Mode) (ht : t < 2 ^ 32) : InRange (e2cResponse t mode) := by
  have hshows := e2cResponse_showsInstant ht mode
  obtain ⟨hy, -⟩ := hshows.date_spec
  obtain ⟨hy', hm, hd⟩ := dateOfDays_le (by omega) hshows.date.symm
  obtain ⟨hhour, -⟩ := hshows.hour_eq
  exact { inRange_zero with
    year := .inr ⟨hy, hy'⟩
    month := hm
    day := hd
    hour := hhour ▸ clockOf_hour_le (Nat.mod_lt _ (by decide)) mode
    minute := by rw [hshows.minute]; omega
    second := by rw [hshows.second]; omega }

theorem inRange_wdayResponse (mondayIndex y m d : Nat) : InRange (wdayResponse mondayIndex y m d) :=
  { inRange_zero with
    weekday := by rw [wdayResponse_weekday]; exact (weekdayIndex_bounds _ _).2 }

/-- Every response to operands that fit their ports is in the ranges. -/
theorem inRange_response (c : Config) {i : Instr} (hwf : i.wellFormed = true) : InRange (response c i) := by
  cases i with
  | bcdenc v => exact inRange_bcdencResponse (InPort.fits_iff.mp hwf)
  | bcddec b => exact inRange_bcddecResponse (InPort.fits_iff.mp hwf)
  | e2c t mode => exact inRange_e2cResponse mode (InPort.fits_iff.mp hwf)
  | c2e y m d h mi s mode period =>
    obtain ⟨-, hp⟩ | ⟨-, -, hp⟩ := response_c2e_cases c y m d h mi s mode period <;> rw [hp]
    · exact inRange_errorResponse
    · exact { inRange_zero with }
  | wday y m d =>
    obtain ⟨-, hp⟩ | ⟨-, hp⟩ := response_wday_cases c y m d <;> rw [hp]
    · exact inRange_errorResponse
    · exact inRange_wdayResponse ..
  | leap y => exact { inRange_zero with }
  | rsvd6 | rsvd7 => exact inRange_errorResponse

/-- Settles O10, by the range of the one response that execution gives. -/
theorem outputPortRanges : Obligations.OutputPortRanges := by
  intro i s p hwf hp
  obtain rfl := gives_iff.mp hp
  exact inRange_response s.config hwf

/-- A step adds the response to a decoded request, which is well formed. -/
theorem Ranged.step {s t : State} (hs : Ranged s) (h : step s = .next t) : Ranged t := by
  obtain ⟨-, rfl⟩ | ⟨r, rest, -, rfl⟩ := step_cases h
  · exact hs
  · intro p hp
    rw [answer_eq, List.mem_append, List.mem_singleton] at hp
    obtain hold | rfl := hp
    · exact hs p hold
    · exact inRange_response s.config (decode_wellFormed r)

theorem Ranged.of_answersAlike {s t : State} (hs : Ranged s) (h : AnswersAlike s t) : Ranged t := by
  rw [Ranged, h.responses]
  exact hs

theorem Ranged.takeResponse {s t : State} {p : Response} (hs : Ranged s) (h : takeResponse s = .next (p, t)) :
    InRange p ∧ Ranged t := by
  obtain ⟨hresponses, -⟩ := takeResponse_eq_next h
  rw [Ranged, hresponses, List.forall_mem_cons] at hs
  exact hs

theorem ranged_of_no_response {s : State} (h : s.responses = []) : Ranged s := by
  rw [Ranged, h]
  exact List.forall_mem_nil _

/-- Settles O17, action by action. -/
theorem stepKeepsPortRanges : Obligations.StepKeepsPortRanges :=
  ⟨fun _ _ => Ranged.step, fun _ _ _ hs h => hs.of_answersAlike (redrive_answersAlike h),
    fun _ _ _ => Ranged.takeResponse, fun _ _ hs => hs, fun s => ranged_of_no_response (hostReset_responses s)⟩

/-- Settles O18: there is no response yet. -/
theorem resetMeetsPortRanges : Obligations.ResetMeetsPortRanges := ranged_of_no_response reset_responses

theorem gives_bcdenc_of_le {n : Nat} (s : State) (h : n ≤ 99) :
    ∃ q : Response, Gives (.bcdenc n) s q ∧ q.err = 0 :=
  ⟨_, gives_bcdenc_iff.mpr rfl, bcdencResponse_err_eq_zero_iff.mpr h⟩

/-- Settles O41: the ranges of these ports end below 100, a weekday has three bits, and the years begin with 1970. -/
theorem calendarFieldsEncode : Obligations.CalendarFieldsEncode := by
  refine ⟨fun t mode s p ht hp => ?calendar, fun y m d s p hp _ => gives_bcdenc_of_le s ?weekday⟩
  case calendar =>
    obtain rfl := gives_e2c_iff.mp hp
    obtain ⟨-, -, -, hm, hd, hh, hmi, hs, -⟩ := inRange_e2cResponse mode ht
    obtain ⟨hy, -⟩ := (e2cResponse_showsInstant ht mode).date_spec
    refine ⟨fun n hn => gives_bcdenc_of_le s ?_, by omega⟩
    simp only [List.mem_cons, List.not_mem_nil, or_false] at hn
    omega
  case weekday => exact Nat.le_trans (BitVec.isLt p.weekday).le (by decide)

end Sys2Proof.Machine
